-- ==== Sys2Proof/Word.lean ====
section
/-! DEFINITION. The words of the block: the byte (00_scope.md rule R7) and the diagnostic counter (rule R6,
CNT_WIDTH = 32). -/
namespace Sys2Proof

/-- A byte: 8 bits, an unsigned value 0..255 (00_scope.md rule R7). -/
abbrev Byte := BitVec 8

/-- A diagnostic counter, CNT_WIDTH = 32 bits, wrapping modulo 2^32 (00_scope.md rules R6, R10). -/
abbrev Counter := BitVec 32

end Sys2Proof
end

