-- ==== Sys2Proof/Config.lean ====
section
/-! DEFINITION. The configuration record (10_state.md rule R25), the parameters of 00_scope.md rule R6, and the one
parameter the spec leaves OPEN (REG_MAP). -/
namespace Sys2Proof

/-- The six payload types the block can decode to a typed record (30_encoding.md rule R74). -/
inductive KnownType where
  | channels
  | linkStats
  | gps
  | battery
  | attitude
  | flightMode
  deriving DecidableEq, Repr

/-- DECODE_SET: a subset of the six known types (00_scope.md rule R6; 92_eei_decisions.md D12). One flag per type,
so that equal sets are equal data. -/
structure DecodeSet where
  channels   : Bool
  linkStats  : Bool
  gps        : Bool
  battery    : Bool
  attitude   : Bool
  flightMode : Bool
  deriving DecidableEq, Repr

/-- The configuration: `Config = { SYNC_BYTE, MAX_FRAME, BUF_CAP, DECODE_SET }` (10_state.md rule R25). Which
configurations are legal is `Config.legal` (Machine/Operands.lean). -/
structure Config where
  syncByte  : Byte
  maxFrame  : Nat
  bufCap    : Nat
  decodeSet : DecodeSet
  deriving DecidableEq, Repr

/-- What a register map would give an address to: the configuration's fields and the diagnostic counters
(92_eei_decisions.md D19). -/
inductive HostRegister where
  | syncByte
  | maxFrame
  | bufCap
  | decodeSet
  | malformedCnt
  | crcErrCnt
  | overflowCnt
  deriving DecidableEq, Repr

/-- REG_MAP, "addresses of configuration and status registers", is OPEN (00_scope.md rule R6; 20_memory.md rule R62):
an uninterpreted constant, so nothing can be proved of an address. No operation reads it: "The model treats the
configuration as RESET operands and the counters as READ_DIAG results" (92_eei_decisions.md D19). -/
opaque Config.regMap : HostRegister → Nat

end Sys2Proof
end

