-- ==== Sys2Proof/Machine/Records.lean ====
section
/-! DEFINITION. The typed records of 10_state.md rule R33: the content of an event and the operand of ENCODE and
ENCODE_RECORD. A record is written once over the type of its numeric fields, so that the same shape holds raw integers
(an event), operands (raw or physical), and per-field descriptions. -/
namespace Sys2Proof.Machine

/-- Link statistics, type 0x14 (43_payload_codec.md rule R175; one downlink RSSI field: 90_conflicts.md C3). -/
structure LinkStats (α : Type) where
  upRssi1   : α
  upRssi2   : α
  upLq      : α
  upSnr     : α
  activeAnt : α
  rfMode    : α
  upTxPower : α
  dnRssi    : α
  dnLq      : α
  dnSnr     : α
  deriving DecidableEq, Repr

/-- GPS, type 0x02 (43_payload_codec.md rule R180). -/
structure Gps (α : Type) where
  lat     : α
  lon     : α
  gspeed  : α
  heading : α
  alt     : α
  sats    : α
  deriving DecidableEq, Repr

/-- Battery, type 0x08 (43_payload_codec.md rule R185). -/
structure Battery (α : Type) where
  voltage   : α
  current   : α
  capacity  : α
  remaining : α
  deriving DecidableEq, Repr

/-- Attitude, type 0x1E (43_payload_codec.md rule R190). -/
structure Attitude (α : Type) where
  pitch : α
  roll  : α
  yaw   : α
  deriving DecidableEq, Repr

/-- A record (10_state.md rule R33) whose numeric fields are of type `α`. The 16 channel values have no scale
(42_channels.md rule R150) and are integers in every form; a label and the bytes of an Unknown are raw bytes. -/
inductive Record (α : Type) where
  | channels   (ch : Vector Int 16)
  | linkStats  (r : LinkStats α)
  | gps        (r : Gps α)
  | battery    (r : Battery α)
  | attitude   (r : Attitude α)
  | flightMode (label : List Byte)
  | unknown    (code : Byte) (bytes : List Byte)
  deriving DecidableEq, Repr

/-- An event: a record of raw integers (10_state.md rule R33). Its fields' exact widths are `Record.inWidths`. -/
abbrev Event := Record Int

/-- One numeric field of an encode request: the raw integer (43_payload_codec.md rule R171) or a physical value, an
exact rational (rule R207). -/
inductive Val where
  | raw      (n : Int)
  | physical (v : Rat)
  deriving DecidableEq, Repr

/-- The operand of ENCODE and ENCODE_RECORD. -/
abbrev Operand := Record Val

/-- Combine two link-statistics records field by field. -/
def LinkStats.zip {α β γ : Type} (f : α → β → γ) (a : LinkStats α) (b : LinkStats β) : LinkStats γ where
  upRssi1   := f a.upRssi1 b.upRssi1
  upRssi2   := f a.upRssi2 b.upRssi2
  upLq      := f a.upLq b.upLq
  upSnr     := f a.upSnr b.upSnr
  activeAnt := f a.activeAnt b.activeAnt
  rfMode    := f a.rfMode b.rfMode
  upTxPower := f a.upTxPower b.upTxPower
  dnRssi    := f a.dnRssi b.dnRssi
  dnLq      := f a.dnLq b.dnLq
  dnSnr     := f a.dnSnr b.dnSnr

/-- Combine two GPS records field by field. -/
def Gps.zip {α β γ : Type} (f : α → β → γ) (a : Gps α) (b : Gps β) : Gps γ where
  lat     := f a.lat b.lat
  lon     := f a.lon b.lon
  gspeed  := f a.gspeed b.gspeed
  heading := f a.heading b.heading
  alt     := f a.alt b.alt
  sats    := f a.sats b.sats

/-- Combine two battery records field by field. -/
def Battery.zip {α β γ : Type} (f : α → β → γ) (a : Battery α) (b : Battery β) : Battery γ where
  voltage   := f a.voltage b.voltage
  current   := f a.current b.current
  capacity  := f a.capacity b.capacity
  remaining := f a.remaining b.remaining

/-- Combine two attitude records field by field. -/
def Attitude.zip {α β γ : Type} (f : α → β → γ) (a : Attitude α) (b : Attitude β) : Attitude γ where
  pitch := f a.pitch b.pitch
  roll  := f a.roll b.roll
  yaw   := f a.yaw b.yaw

/-- Every field of a record of truth values holds. -/
def LinkStats.all (r : LinkStats Bool) : Bool :=
  r.upRssi1 && r.upRssi2 && r.upLq && r.upSnr && r.activeAnt && r.rfMode && r.upTxPower && r.dnRssi && r.dnLq && r.dnSnr

/-- Every field of a record of truth values holds. -/
def Gps.all (r : Gps Bool) : Bool :=
  r.lat && r.lon && r.gspeed && r.heading && r.alt && r.sats

/-- Every field of a record of truth values holds. -/
def Battery.all (r : Battery Bool) : Bool :=
  r.voltage && r.current && r.capacity && r.remaining

/-- Every field of a record of truth values holds. -/
def Attitude.all (r : Attitude Bool) : Bool :=
  r.pitch && r.roll && r.yaw

/-- The fields in payload order. -/
def LinkStats.toList {α : Type} (r : LinkStats α) : List α :=
  [r.upRssi1, r.upRssi2, r.upLq, r.upSnr, r.activeAnt, r.rfMode, r.upTxPower, r.dnRssi, r.dnLq, r.dnSnr]

/-- The fields in payload order. -/
def Gps.toList {α : Type} (r : Gps α) : List α :=
  [r.lat, r.lon, r.gspeed, r.heading, r.alt, r.sats]

/-- The fields in payload order. -/
def Battery.toList {α : Type} (r : Battery α) : List α :=
  [r.voltage, r.current, r.capacity, r.remaining]

/-- The fields in payload order. -/
def Attitude.toList {α : Type} (r : Attitude α) : List α :=
  [r.pitch, r.roll, r.yaw]

/-- The record whose fields are all present, if they are. -/
def LinkStats.sequence {α : Type} (r : LinkStats (Option α)) : Option (LinkStats α) := do
  let upRssi1 ← r.upRssi1
  let upRssi2 ← r.upRssi2
  let upLq ← r.upLq
  let upSnr ← r.upSnr
  let activeAnt ← r.activeAnt
  let rfMode ← r.rfMode
  let upTxPower ← r.upTxPower
  let dnRssi ← r.dnRssi
  let dnLq ← r.dnLq
  let dnSnr ← r.dnSnr
  return { upRssi1, upRssi2, upLq, upSnr, activeAnt, rfMode, upTxPower, dnRssi, dnLq, dnSnr }

/-- The record whose fields are all present, if they are. -/
def Gps.sequence {α : Type} (r : Gps (Option α)) : Option (Gps α) := do
  let lat ← r.lat
  let lon ← r.lon
  let gspeed ← r.gspeed
  let heading ← r.heading
  let alt ← r.alt
  let sats ← r.sats
  return { lat, lon, gspeed, heading, alt, sats }

/-- The record whose fields are all present, if they are. -/
def Battery.sequence {α : Type} (r : Battery (Option α)) : Option (Battery α) := do
  let voltage ← r.voltage
  let current ← r.current
  let capacity ← r.capacity
  let remaining ← r.remaining
  return { voltage, current, capacity, remaining }

/-- The record whose fields are all present, if they are. -/
def Attitude.sequence {α : Type} (r : Attitude (Option α)) : Option (Attitude α) := do
  let pitch ← r.pitch
  let roll ← r.roll
  let yaw ← r.yaw
  return { pitch, roll, yaw }

end Sys2Proof.Machine
end

