-- ==== Sys2Proof/Machine/Operands.lean ====
section
/-! DEFINITION. The operand forms: byte order and field assembly (00_scope.md rule R9), field widths and scales
(43_payload_codec.md), the configuration's derived values and legality (10_state.md rule R25), and the dispatch map
(30_encoding.md rule R74). Nothing here reads the machine's state. -/
namespace Sys2Proof

/-! ### The configuration -/

/-- Membership in DECODE_SET. -/
def DecodeSet.has (d : DecodeSet) : KnownType → Bool
  | .channels   => d.channels
  | .linkStats  => d.linkStats
  | .gps        => d.gps
  | .battery    => d.battery
  | .attitude   => d.attitude
  | .flightMode => d.flightMode

/-- LEN_MAX = min(62, MAX_FRAME - 2) (10_state.md rule R25). -/
def Config.lenMax (c : Config) : Nat := min 62 (c.maxFrame - 2)

/-- "A configuration is legal when 4 <= MAX_FRAME <= 255, BUF_CAP >= MAX_FRAME and DECODE_SET is a subset of the six
known types" (10_state.md rule R25); the last holds of every `DecodeSet`. -/
def Config.legal (c : Config) : Bool :=
  decide (4 ≤ c.maxFrame) && decide (c.maxFrame ≤ 255) && decide (c.maxFrame ≤ c.bufCap)

/-- The defaults of 00_scope.md rule R6: SYNC_BYTE 0xC8, MAX_FRAME 64, BUF_CAP 64, all six types decoded. -/
def Config.default : Config where
  syncByte  := 0xC8#8
  maxFrame  := 64
  bufCap    := 64
  decodeSet := { channels := true, linkStats := true, gps := true, battery := true, attitude := true, flightMode := true }

/-- A length byte is in range when `2 <= L <= LEN_MAX` (30_encoding.md rule R72). -/
def Config.lengthOk (c : Config) (len : Nat) : Bool := decide (2 ≤ len) && decide (len ≤ c.lenMax)

/-- A payload fits a frame when its length byte, |p| + 2, does not exceed LEN_MAX (44_frame_encoder.md rule R230). -/
def Config.fits (c : Config) (payload : List Byte) : Bool := decide (payload.length + 2 ≤ c.lenMax)

namespace Machine

/-! ### Byte order (00_scope.md rule R9) -/

/-- `be_u(p, o, n)`: n bytes at offset o as an unsigned big-endian integer. -/
def beU (p : List Byte) (o n : Nat) : Nat :=
  ((p.drop o).take n).foldl (fun v b => v * 256 + b.toNat) 0

/-- `be_s(p, o, n)`: the same bytes as a two's-complement integer (92_eei_decisions.md D27). -/
def beS (p : List Byte) (o n : Nat) : Int :=
  if 2 ^ (8 * n - 1) ≤ beU p o n then (beU p o n : Int) - 2 ^ (8 * n) else (beU p o n : Int)

/-- The low n bytes of a natural number, most significant byte first. -/
def bytesBE (v : Nat) : Nat → List Byte
  | 0     => []
  | n + 1 => BitVec.ofNat 8 (v >>> (8 * n)) :: bytesBE v n

/-- `put_be(v, n)`: v modulo 2^(8n) as n bytes, big-endian. -/
def putBE (v : Int) (n : Nat) : List Byte := bytesBE (v % 2 ^ (8 * n)).toNat n

/-- `le_bits(p)`: the bytes as one little-endian integer. -/
def leBits : List Byte → Nat
  | []      => 0
  | b :: bs => b.toNat + 256 * leBits bs

/-! ### Field widths, scales and physical values -/

/-- The widths a numeric field can have (43_payload_codec.md rules R175 to R190). -/
inductive Width where
  | u8
  | u16
  | u24
  | s8
  | s16
  | s32
  deriving DecidableEq, Repr

/-- The least value of the width. -/
def Width.lo : Width → Int
  | .u8  => 0
  | .u16 => 0
  | .u24 => 0
  | .s8  => -128
  | .s16 => -32768
  | .s32 => -2147483648

/-- The greatest value of the width. -/
def Width.hi : Width → Int
  | .u8  => 255
  | .u16 => 65535
  | .u24 => 16777215
  | .s8  => 127
  | .s16 => 32767
  | .s32 => 2147483647

/-- A field's physical value is `raw x scale + offset` (43_payload_codec.md rule R206). -/
structure Scale where
  scale  : Rat
  offset : Rat
  deriving DecidableEq, Repr

/-- A numeric field: its width, and its scale unless it is an enumeration "with no numeric scale" (rule R178). -/
structure Field where
  width : Width
  scale : Option Scale
  deriving DecidableEq, Repr

/-- The raw value is within the field's width (no other range is checked: rule R208). -/
def Field.holds (f : Field) (n : Int) : Bool := decide (f.width.lo ≤ n) && decide (n ≤ f.width.hi)

/-- The exact physical value of a raw value, for a field that has a scale (rule R206). -/
def Field.physical (f : Field) (n : Int) : Option Rat :=
  f.scale.map fun s => (n : Rat) * s.scale + s.offset

/-- The raw field of a physical value: `(v - offset) / scale` when that is an integer within the field's width, and
nothing otherwise (rule R207). -/
def Field.ofPhysical (f : Field) (v : Rat) : Option Int :=
  match f.scale with
  | none   => none
  | some s =>
    let q := (v - s.offset) / s.scale
    if q.den = 1 && f.holds q.num then some q.num else none

/-- The raw integer of an operand field; nothing when a physical value is not representable (rule R207). -/
def Val.toRaw (f : Field) : Val → Option Int
  | .raw n      => some n
  | .physical v => f.ofPhysical v

/-- The widths of rule R175 and the scales of rule R178: RSSI in dBm is -raw, link quality and SNR are raw. -/
def LinkStats.fields : LinkStats Field where
  upRssi1   := ⟨.u8, some ⟨-1, 0⟩⟩
  upRssi2   := ⟨.u8, some ⟨-1, 0⟩⟩
  upLq      := ⟨.u8, some ⟨1, 0⟩⟩
  upSnr     := ⟨.s8, some ⟨1, 0⟩⟩
  activeAnt := ⟨.u8, none⟩
  rfMode    := ⟨.u8, none⟩
  upTxPower := ⟨.u8, none⟩
  dnRssi    := ⟨.u8, some ⟨-1, 0⟩⟩
  dnLq      := ⟨.u8, some ⟨1, 0⟩⟩
  dnSnr     := ⟨.s8, some ⟨1, 0⟩⟩

/-- The widths of rule R180 and the scales of rule R183. -/
def Gps.fields : Gps Field where
  lat     := ⟨.s32, some ⟨1 / 10000000, 0⟩⟩
  lon     := ⟨.s32, some ⟨1 / 10000000, 0⟩⟩
  gspeed  := ⟨.u16, some ⟨1 / 10, 0⟩⟩
  heading := ⟨.u16, some ⟨1 / 100, 0⟩⟩
  alt     := ⟨.u16, some ⟨1, -1000⟩⟩
  sats    := ⟨.u8, some ⟨1, 0⟩⟩

/-- The widths of rule R185 and the scales of rule R188. -/
def Battery.fields : Battery Field where
  voltage   := ⟨.u16, some ⟨1 / 10, 0⟩⟩
  current   := ⟨.u16, some ⟨1 / 10, 0⟩⟩
  capacity  := ⟨.u24, some ⟨1, 0⟩⟩
  remaining := ⟨.u8, some ⟨1, 0⟩⟩

/-- The widths of rule R190 and the scales of rule R193. -/
def Attitude.fields : Attitude Field where
  pitch := ⟨.s16, some ⟨1 / 10000, 0⟩⟩
  roll  := ⟨.s16, some ⟨1 / 10000, 0⟩⟩
  yaw   := ⟨.s16, some ⟨1 / 10000, 0⟩⟩

/-- A channel value is a u11, 0 to 2047 (42_channels.md rule R150). -/
def channelsOk (ch : Vector Int 16) : Bool := ch.toList.all fun v => decide (0 ≤ v) && decide (v ≤ 2047)

/-- The label of a flight mode holds no 0x00 and is at most LEN_MAX - 3 bytes (rule R197). -/
def labelOk (lenMax : Nat) (label : List Byte) : Bool :=
  label.all (fun b => b != 0#8) && decide (label.length + 3 ≤ lenMax)

/-- Every field is within its exact width and every length within its limit (10_state.md rule R33), for frames of at
most `lenMax` counted bytes. -/
def Record.inWidths (lenMax : Nat) : Event → Bool
  | .channels ch      => channelsOk ch
  | .linkStats r      => (LinkStats.zip Field.holds LinkStats.fields r).all
  | .gps r            => (Gps.zip Field.holds Gps.fields r).all
  | .battery r        => (Battery.zip Field.holds Battery.fields r).all
  | .attitude r       => (Attitude.zip Field.holds Attitude.fields r).all
  | .flightMode label => labelOk lenMax label
  | .unknown _ bytes  => decide (bytes.length + 2 ≤ lenMax)

/-- The record of raw integers an operand stands for; nothing when some physical value is not representable
(rule R207). -/
def Record.toRaw : Operand → Option Event
  | .channels ch      => some (.channels ch)
  | .linkStats r      => (LinkStats.zip Val.toRaw LinkStats.fields r).sequence.map .linkStats
  | .gps r            => (Gps.zip Val.toRaw Gps.fields r).sequence.map .gps
  | .battery r        => (Battery.zip Val.toRaw Battery.fields r).sequence.map .battery
  | .attitude r       => (Attitude.zip Val.toRaw Attitude.fields r).sequence.map .attitude
  | .flightMode label => some (.flightMode label)
  | .unknown t bytes  => some (.unknown t bytes)

/-- The operand that gives every field of a record as its raw integer (43_payload_codec.md rule R171). -/
def Record.asRaw : Event → Operand
  | .channels ch      => .channels ch
  | .linkStats r      => .linkStats (LinkStats.zip (fun _ n => .raw n) LinkStats.fields r)
  | .gps r            => .gps (Gps.zip (fun _ n => .raw n) Gps.fields r)
  | .battery r        => .battery (Battery.zip (fun _ n => .raw n) Battery.fields r)
  | .attitude r       => .attitude (Attitude.zip (fun _ n => .raw n) Attitude.fields r)
  | .flightMode label => .flightMode label
  | .unknown t bytes  => .unknown t bytes

/-- A raw field presented by its exact physical value where it has one (rule R206). -/
def Field.present (f : Field) (n : Int) : Val :=
  match f.physical n with
  | some v => .physical v
  | none   => .raw n

/-- A record presented by its fields' exact physical values: "a model that presents physical values must present
exactly that rational" (43_payload_codec.md rule R206). -/
def Record.present : Event → Operand
  | .channels ch      => .channels ch
  | .linkStats r      => .linkStats (LinkStats.zip Field.present LinkStats.fields r)
  | .gps r            => .gps (Gps.zip Field.present Gps.fields r)
  | .battery r        => .battery (Battery.zip Field.present Battery.fields r)
  | .attitude r       => .attitude (Attitude.zip Field.present Attitude.fields r)
  | .flightMode label => .flightMode label
  | .unknown t bytes  => .unknown t bytes

/-- The transmit-power enumeration in milliwatts, "informative only (no rule of the block depends on it)"
(43_payload_codec.md rule R179). -/
def txPowerMilliwatts : Nat → Option Nat
  | 0 => some 0
  | 1 => some 10
  | 2 => some 25
  | 3 => some 100
  | 4 => some 500
  | 5 => some 1000
  | 6 => some 2000
  | 7 => some 250
  | 8 => some 50
  | _ => none

/-! ### The dispatch map (30_encoding.md rule R74) -/

/-- `FM_CANON(p)`: the payload is a label with no 0x00 followed by one 0x00 (43_payload_codec.md rule R195). -/
def fmCanon (p : List Byte) : Bool :=
  decide (1 ≤ p.length) && p.getLast? == some 0#8 && p.dropLast.all fun b => b != 0#8

end Machine

/-- The type code of a row of the dispatch map. -/
def KnownType.code : KnownType → Byte
  | .gps        => 0x02#8
  | .battery    => 0x08#8
  | .linkStats  => 0x14#8
  | .channels   => 0x16#8
  | .attitude   => 0x1E#8
  | .flightMode => 0x21#8

/-- The payload has the row's length or form. -/
def KnownType.formOk : KnownType → List Byte → Bool
  | .channels, p   => p.length == 22
  | .linkStats, p  => p.length == 10
  | .gps, p        => p.length == 15
  | .battery, p    => p.length == 8
  | .attitude, p   => p.length == 6
  | .flightMode, p => Machine.fmCanon p

/-- A frame decodes as a row's type "when its type byte equals the row's code, the type is in DECODE_SET, and its
payload has the row's length or form" (30_encoding.md rule R74). -/
def Config.rowTakes (c : Config) (t : Byte) (p : List Byte) (k : KnownType) : Bool :=
  t == k.code && c.decodeSet.has k && k.formOk p

/-- The row of the dispatch map that takes a frame, if one does. -/
def Config.rowOf (c : Config) (t : Byte) (p : List Byte) : Option KnownType :=
  [KnownType.channels, .linkStats, .gps, .battery, .attitude, .flightMode].find? (c.rowTakes t p)

/-- The row whose code a type byte is, whatever the payload and DECODE_SET. -/
def KnownType.ofCode (t : Byte) : Option KnownType :=
  [KnownType.channels, .linkStats, .gps, .battery, .attitude, .flightMode].find? fun k => t == k.code

/-- The shortest payload a row takes (30_encoding.md rule R74). -/
def KnownType.shortest : KnownType → Nat
  | .channels   => 22
  | .linkStats  => 10
  | .gps        => 15
  | .battery    => 8
  | .attitude   => 6
  | .flightMode => 1

end Sys2Proof
end

