-- ==== Sys2Proof/Syntax.lean ====
section
/-! DEFINITION. The instructions: one constructor per row of spec/opcode_table.json. The first seven are frames of the
received stream ("each frame a byte stream carries is one unit the block decodes, and its type byte selects the
operation", 30_encoding.md); the other twelve are the host's operations, which have no binary encoding. -/
namespace Sys2Proof

open Sys2Proof.Machine

/-- One unit the block executes. A frame row carries the frame's payload (30_encoding.md rule R70); its sync, length and
crc bytes follow from the payload and the configuration. -/
inductive Instr where
  /-- CHANNELS: a frame of type 0x16 (42_channels.md rule R155). -/
  | channels (payload : List Byte)
  /-- LINK_STATS: a frame of type 0x14 (43_payload_codec.md rule R176). -/
  | linkStats (payload : List Byte)
  /-- GPS: a frame of type 0x02 (rule R181). -/
  | gps (payload : List Byte)
  /-- BATTERY: a frame of type 0x08 (rule R186). -/
  | battery (payload : List Byte)
  /-- ATTITUDE: a frame of type 0x1E (rule R191). -/
  | attitude (payload : List Byte)
  /-- FLIGHT_MODE: a frame of type 0x21 (rule R196). -/
  | flightMode (payload : List Byte)
  /-- UNKNOWN: a frame of any type code that no earlier row takes with its payload (rule R200). -/
  | unknown (code : Byte) (payload : List Byte)
  /-- PUSH_BYTE(b) (40_resync.md rule R100). -/
  | pushByte (b : Byte)
  /-- PUSH_CHUNK(bs) (40_resync.md rule R109). -/
  | pushChunk (bs : List Byte)
  /-- CRC8(s) (41_crc.md rule R130). -/
  | crc8 (bytes : List Byte)
  /-- CRC_CHECK(t, p, c) (41_crc.md rule R132). -/
  | crcCheck (code : Byte) (payload : List Byte) (crc : Byte)
  /-- UNPACK(p), p exactly 22 bytes (42_channels.md rule R151). -/
  | unpack (payload : Vector Byte 22)
  /-- PACK(ch), ch 16 integers (42_channels.md rule R152). -/
  | pack (ch : Vector Int 16)
  /-- DECODE(t, p) (43_payload_codec.md rule R170). -/
  | decode (code : Byte) (payload : List Byte)
  /-- ENCODE(r) (43_payload_codec.md rules R171 and R207). -/
  | encode (r : Operand)
  /-- FRAME_ENCODE(t, p) (44_frame_encoder.md rule R230). -/
  | frameEncode (code : Byte) (payload : List Byte)
  /-- ENCODE_RECORD(r) (44_frame_encoder.md rule R231). -/
  | encodeRecord (r : Operand)
  /-- READ_DIAG() (60_exceptions.md rule R262). -/
  | readDiag
  /-- RESET(cfg) (70_reset_and_hazards.md rule R280). -/
  | reset (cfg : Config)
  deriving DecidableEq, Repr

end Sys2Proof
end

