-- ==== Sys2Proof/WellFormed.lean ====
section
/-! DEFINITION. When an instruction is well formed under a configuration: a frame row names the row of the dispatch map
that takes its payload (30_encoding.md rule R74) and its payload fits a frame (rule R72); a host operation's operands are
the ones its rule gives a meaning (60_exceptions.md rule R256). -/
namespace Sys2Proof

open Sys2Proof.Machine

/-- A record the payload codec encodes: its fields are representable, within their widths, and its lengths within their
limits (43_payload_codec.md rules R171, R177 to R207; 42_channels.md rule R152). -/
def Config.encodable (c : Config) (r : Operand) : Bool :=
  match r.toRaw with
  | some e => Record.inWidths c.lenMax e
  | none   => false

/-- The payload length of the record's frame, when the record is encodable (30_encoding.md rule R74). -/
def Config.recordFits (c : Config) : Operand → Bool
  | .channels _       => decide (22 + 2 ≤ c.lenMax)
  | .linkStats _      => decide (10 + 2 ≤ c.lenMax)
  | .gps _            => decide (15 + 2 ≤ c.lenMax)
  | .battery _        => decide (8 + 2 ≤ c.lenMax)
  | .attitude _       => decide (6 + 2 ≤ c.lenMax)
  | .flightMode label => decide (label.length + 1 + 2 ≤ c.lenMax)
  | .unknown _ bytes  => decide (bytes.length + 2 ≤ c.lenMax)

/-- The instruction is well formed under configuration `c`. -/
def Instr.wellFormed (c : Config) : Instr → Bool
  | .channels p     => c.rowTakes 0x16#8 p .channels && c.fits p
  | .linkStats p    => c.rowTakes 0x14#8 p .linkStats && c.fits p
  | .gps p          => c.rowTakes 0x02#8 p .gps && c.fits p
  | .battery p      => c.rowTakes 0x08#8 p .battery && c.fits p
  | .attitude p     => c.rowTakes 0x1E#8 p .attitude && c.fits p
  | .flightMode p   => c.rowTakes 0x21#8 p .flightMode && c.fits p
  | .unknown t p    => (c.rowOf t p).isNone && c.fits p
  | .pushByte _     => true
  | .pushChunk _    => true
  | .crc8 _         => true
  | .crcCheck _ p _ => c.fits p
  | .unpack _       => true
  | .pack ch        => channelsOk ch
  | .decode _ p     => c.fits p
  | .encode r       => c.encodable r
  | .frameEncode _ p => c.fits p
  | .encodeRecord r => c.encodable r && c.recordFits r
  | .readDiag       => true
  | .reset cfg      => cfg.legal

/-- The instruction is a frame of the received stream, not a host operation. -/
def Instr.isFrame : Instr → Bool
  | .channels _      => true
  | .linkStats _     => true
  | .gps _           => true
  | .battery _       => true
  | .attitude _      => true
  | .flightMode _    => true
  | .unknown _ _     => true
  | .pushByte _      => false
  | .pushChunk _     => false
  | .crc8 _          => false
  | .crcCheck _ _ _  => false
  | .unpack _        => false
  | .pack _          => false
  | .decode _ _      => false
  | .encode _        => false
  | .frameEncode _ _ => false
  | .encodeRecord _  => false
  | .readDiag        => false
  | .reset _         => false

end Sys2Proof
end

