-- ==== Sys2Proof/Decode.lean ====
section
/-! DEFINITION. From the bytes of the stream to a frame row and back: the frame format (30_encoding.md rule R70), the
length arithmetic (rule R71), the dispatch map (rule R74). Host operations have no binary encoding
(spec/opcode_table.json), so no bytes decode to one. -/
namespace Sys2Proof

open Sys2Proof.Machine

/-- Why the bytes at hand are no frame. -/
inductive Reject where
  /-- The frame is not complete yet: "need more data" (40_resync.md rules R104, R106). -/
  | needMore
  /-- The first byte is not SYNC_BYTE (rule R103). -/
  | notSync
  /-- The length byte is outside 2 to LEN_MAX (rule R105). -/
  | malformedLength
  /-- The computed CRC differs from the crc byte (rule R107). -/
  | crcMismatch
  deriving DecidableEq, Repr

/-- The frame row that a valid frame of type `t` and payload `p` is (30_encoding.md rule R74). -/
def Config.frameRow (c : Config) (t : Byte) (p : List Byte) : Instr :=
  match c.rowOf t p with
  | some .channels   => .channels p
  | some .linkStats  => .linkStats p
  | some .gps        => .gps p
  | some .battery    => .battery p
  | some .attitude   => .attitude p
  | some .flightMode => .flightMode p
  | none             => .unknown t p

/-- Decode one frame from the front of the stream and return it with the rest, or say why there is none: sync, length
byte L, type at index 2, payload at indices 3 to L, crc at index L + 1 (30_encoding.md rules R70, R71, R79). -/
def decode (c : Config) : List Byte → Except Reject (Instr × List Byte)
  | [] => .error .needMore
  | s :: rest =>
    if s != c.syncByte then .error .notSync
    else match rest with
      | [] => .error .needMore
      | len :: body =>
        if !c.lengthOk len.toNat then .error .malformedLength
        else if body.length < len.toNat then .error .needMore
        else
          let t   := body.getD 0 0
          let p   := (body.drop 1).take (len.toNat - 2)
          let crc := body.getD (len.toNat - 1) 0
          if crcCheck t p crc then .ok (c.frameRow t p, body.drop len.toNat) else .error .crcMismatch

/-- The bytes of the frame of type `t` and payload `p`: `[SYNC_BYTE, |p| + 2, t] ++ p ++ [CRC8([t] ++ p)]`
(30_encoding.md rules R70, R71). -/
def Config.frameBytes (c : Config) (t : Byte) (p : List Byte) : List Byte :=
  [c.syncByte, BitVec.ofNat 8 (p.length + 2), t] ++ p ++ [crc8 ([t] ++ p)]

/-- The type code and payload of a frame row. -/
def Instr.typeAndPayload : Instr → Option (Byte × List Byte)
  | .channels p      => some (0x16#8, p)
  | .linkStats p     => some (0x14#8, p)
  | .gps p           => some (0x02#8, p)
  | .battery p       => some (0x08#8, p)
  | .attitude p      => some (0x1E#8, p)
  | .flightMode p    => some (0x21#8, p)
  | .unknown t p     => some (t, p)
  | .pushByte _      => none
  | .pushChunk _     => none
  | .crc8 _          => none
  | .crcCheck _ _ _  => none
  | .unpack _        => none
  | .pack _          => none
  | .decode _ _      => none
  | .encode _        => none
  | .frameEncode _ _ => none
  | .encodeRecord _  => none
  | .readDiag        => none
  | .reset _         => none

/-- The bytes of an instruction: a frame row's frame, when its payload fits one (30_encoding.md rule R72). A host
operation has no binary encoding. -/
def encode (c : Config) (i : Instr) : Option (List Byte) :=
  match i.typeAndPayload with
  | some (t, p) => if c.fits p then some (c.frameBytes t p) else none
  | none        => none

/-- The frame that the opcode table's bits stand for. The table numbers a frame from its type byte ("type": "byte 2",
"match": "0x16"): bits 7 to 0 of `w` are the type byte and the further bytes of `w`, up to `nbits`, the payload's first
bytes. The payload is filled with zero bytes to the shortest payload the type's row takes; the sync, length and crc bytes
are those that make the frame valid (log entry 6). -/
def Config.tableFrame (c : Config) (nbits w : Nat) : List Byte :=
  let t     := BitVec.ofNat 8 w
  let given := (List.range (nbits / 8 - 1)).map fun k => BitVec.ofNat 8 (w >>> (8 * (k + 1)))
  let least := match KnownType.ofCode t with
    | some k => k.shortest
    | none   => 0
  c.frameBytes t (given ++ List.replicate (least - given.length) 0#8)

/-- The instruction the decoder reads from the table's bits, under the default configuration. -/
def decodeTableWord (nbits w : Nat) : Option Instr :=
  match decode Config.default (Config.default.tableFrame nbits w) with
  | .ok (i, _) => some i
  | .error _   => none

end Sys2Proof
end

