-- ==== Sys2Proof/Machine/Channels.lean ====
section
/-! DEFINITION. The channel unpacker and packer: 22 bytes to and from 16 values of 11 bits (42_channels.md). -/
namespace Sys2Proof.Machine

/-- UNPACK(p): channel i is bits 11i + 10 down to 11i of the payload read as one little-endian integer (42_channels.md
rule R151). -/
def unpack (p : List Byte) : Vector Int 16 :=
  ⟨⟨(List.range 16).map fun i => (((leBits p >>> (11 * i)) % 2 ^ 11 : Nat) : Int)⟩, by simp⟩

/-- The sum of `ch[i] * 2^(11i)` (42_channels.md rule R152), for values 0 to 2047. -/
def channelBits : List Int → Nat
  | []      => 0
  | v :: vs => v.toNat + 2 ^ 11 * channelBits vs

/-- PACK(ch), for values 0 to 2047: byte k is bits 8k + 7 down to 8k of the 176-bit sum (42_channels.md rule R152). -/
def pack (ch : Vector Int 16) : List Byte :=
  (List.range 22).map fun k => BitVec.ofNat 8 (channelBits ch.toList >>> (8 * k))

end Sys2Proof.Machine
end

