-- ==== Sys2Proof/Machine/State.lean ====
section
/-! DEFINITION. The machine's state, all of it plain data: the spec's state record (10_state.md rule R20), the
configuration of the last RESET (70_reset_and_hazards.md rule R280), the two egress sequences (20_memory.md rules R60,
R61), the return value of the latest operation, and the host's pending interactions (00_scope.md rule R5). -/
namespace Sys2Proof.Machine

/-- A recovered condition (60_exceptions.md rule R250). -/
inductive Diag where
  | malformedLength
  | crcMismatch
  | bufferOverflow
  deriving DecidableEq, Repr

/-- What a PUSH_BYTE returns (10_state.md rule R28). -/
structure PushStatus where
  event    : Option Event
  consumed : Nat
  needMore : Bool
  diag     : Option Diag
  deriving DecidableEq, Repr

/-- What a PUSH_CHUNK returns (40_resync.md rule R109). -/
structure ChunkStatus where
  events   : List Event
  consumed : Nat
  needMore : Bool
  diags    : List Diag
  deriving DecidableEq, Repr

/-- What READ_DIAG returns (60_exceptions.md rule R262). -/
structure DiagCounters where
  malformedCnt : Counter
  crcErrCnt    : Counter
  overflowCnt  : Counter
  deriving DecidableEq, Repr

/-- The return value of an operation (00_scope.md rule R5, column "the block returns"; the operation rules). -/
inductive Returned where
  /-- Nothing has been returned: after RESET and at power-on. -/
  | nothing
  | pushStatus (s : PushStatus)
  | chunkStatus (s : ChunkStatus)
  | crc (c : Byte)
  | crcOk (ok : Bool)
  | channels (ch : Vector Int 16)
  | payload (p : List Byte)
  | record (r : Event)
  | typeAndPayload (t : Byte) (p : List Byte)
  | frame (f : List Byte)
  | counters (d : DiagCounters)
  deriving DecidableEq, Repr

/-- The block's state record (10_state.md rule R20): the working buffer, oldest byte first (rule R21), and the three
diagnostic counters (rules R22 to R24). -/
structure Block where
  buf          : List Byte
  malformedCnt : Counter
  crcErrCnt    : Counter
  overflowCnt  : Counter
  deriving DecidableEq, Repr

/-- The work of one push in progress: the block, the events emitted so far in order, and the push's diag (40_resync.md
rule R100). -/
structure Scan where
  block   : Block
  emitted : List Event
  diag    : Option Diag
  deriving DecidableEq, Repr

/-- The work of a chunk in progress: the block, the events emitted to the consumer, and the `events` and `diags` lists
the chunk will return (40_resync.md rule R109). -/
structure Chunk where
  block   : Block
  emitted : List Event
  events  : List Event
  diags   : List Diag
  deriving DecidableEq, Repr

/-- An operation the host can request (00_scope.md rule R5; the host-operation rows of spec/opcode_table.json). The frame
rows are not requests: a frame reaches the block through the byte stream. -/
inductive HostOp where
  | pushByte (b : Byte)
  | pushChunk (bs : List Byte)
  | crc8 (bytes : List Byte)
  | crcCheck (code : Byte) (payload : List Byte) (crc : Byte)
  | unpack (payload : Vector Byte 22)
  | pack (ch : Vector Int 16)
  | decode (code : Byte) (payload : List Byte)
  | encode (r : Operand)
  | frameEncode (code : Byte) (payload : List Byte)
  | encodeRecord (r : Operand)
  | readDiag
  | reset (cfg : Config)
  deriving DecidableEq, Repr

/-- One thing the host has waiting for the block: an operation, or a stretch of the received byte stream (20_memory.md
rule R50) to be pushed byte after byte. -/
inductive Item where
  | op (h : HostOp)
  | wire (bytes : List Byte)
  deriving DecidableEq, Repr

/-- A pending host interaction with the configuration it is issued under: "The configuration is a parameter of every
operation" (10_state.md rule R20; 70_reset_and_hazards.md rule R284). -/
structure Request where
  config : Config
  item   : Item
  deriving DecidableEq, Repr

/-- The machine's state. -/
structure State where
  /-- The spec's state record (10_state.md rule R20). -/
  block    : Block
  /-- The configuration of the last RESET (70_reset_and_hazards.md rules R280, R282). -/
  config   : Config
  /-- The configuration the current operation is issued under (10_state.md rule R20; 70_reset_and_hazards.md
  rule R284). -/
  issued   : Config
  /-- The egress event sequence, oldest first (20_memory.md rule R60). -/
  events   : List Event
  /-- The egress transmit sequence, one entry per frame, oldest first (20_memory.md rule R61). -/
  sent     : List (List Byte)
  /-- The return value of the latest operation. -/
  returned : Returned
  /-- The host's pending interactions, in the order it issues them (20_memory.md rule R63). -/
  host     : List Request
  deriving DecidableEq, Repr

/-- Why the machine stops with a fault: never. "There is no fatal error path within the core itself"
(60_exceptions.md; rules R250 and R258), so there is no constructor. -/
inductive Fault where
  deriving DecidableEq, Repr

/-- Why an operation is refused: "These operand conditions have no meaning in the source. A model refuses them, giving
no next state and no output" (60_exceptions.md rule R256). Each of them is safe: the run stops where the chip's behaviour
is unknown. -/
inductive Refusal where
  /-- An instruction the model gives no meaning; raised by a refused arm of `exec` only, and there is none. Safe. -/
  | notModelled (mnemonic : String)
  /-- CHANNEL_OUT_OF_RANGE: raised by PACK, and by ENCODE and ENCODE_RECORD of a channel record, when a channel value is
  outside 0 to 2047. Safe. -/
  | channelOutOfRange
  /-- FIELD_OUT_OF_RANGE: raised by ENCODE and ENCODE_RECORD when a raw field is outside its width. Safe. -/
  | fieldOutOfRange
  /-- LABEL_INVALID: raised by ENCODE and ENCODE_RECORD when a label holds 0x00 or is longer than LEN_MAX - 3. Safe. -/
  | labelInvalid
  /-- PAYLOAD_TOO_LONG: raised by ENCODE of an Unknown record, FRAME_ENCODE and ENCODE_RECORD when a payload is longer
  than LEN_MAX - 2. Safe. -/
  | payloadTooLong
  /-- NOT_REPRESENTABLE: raised by ENCODE and ENCODE_RECORD when a physical value is off its field's grid or outside its
  width (43_payload_codec.md rule R207). Safe. -/
  | notRepresentable
  /-- CONFIG_ILLEGAL: raised by RESET of a configuration that breaks 10_state.md rule R25. Safe. -/
  | configIllegal
  /-- CONFIG_CHANGED: raised by every operation but RESET when it is issued under a configuration other than the one of
  the last RESET (70_reset_and_hazards.md rule R284). Safe. -/
  | configChanged
  deriving DecidableEq, Repr

/-- The block right after RESET (10_state.md rule R34). -/
def Block.reset : Block where
  buf          := []
  malformedCnt := 0
  crcErrCnt    := 0
  overflowCnt  := 0

/-- The machine at power-on, which "behaves as RESET with the default configuration" (70_reset_and_hazards.md rule R281;
10_state.md rule R34). The model's own fields start empty: nothing returned, nothing delivered, nothing pending, and the
host issuing under the configuration in force (log entries 1, 2, 3 and 4). -/
def State.reset : State where
  block    := Block.reset
  config   := Config.default
  issued   := Config.default
  events   := []
  sent     := []
  returned := .nothing
  host     := []

end Sys2Proof.Machine
end

