-- ==== Sys2Proof/Machine/Codec.lean ====
section
/-! DEFINITION. The payload codec (43_payload_codec.md): DECODE and ENCODE and their per-type routines. -/
namespace Sys2Proof.Machine

/-! ### Decoding -/

/-- DEC_LINK(p), p of 10 bytes (43_payload_codec.md rule R176). -/
def decLink (p : List Byte) : LinkStats Int where
  upRssi1   := beU p 0 1
  upRssi2   := beU p 1 1
  upLq      := beU p 2 1
  upSnr     := beS p 3 1
  activeAnt := beU p 4 1
  rfMode    := beU p 5 1
  upTxPower := beU p 6 1
  dnRssi    := beU p 7 1
  dnLq      := beU p 8 1
  dnSnr     := beS p 9 1

/-- DEC_GPS(p), p of 15 bytes (rule R181). -/
def decGps (p : List Byte) : Gps Int where
  lat     := beS p 0 4
  lon     := beS p 4 4
  gspeed  := beU p 8 2
  heading := beU p 10 2
  alt     := beU p 12 2
  sats    := beU p 14 1

/-- DEC_BATT(p), p of 8 bytes (rule R186). -/
def decBatt (p : List Byte) : Battery Int where
  voltage   := beU p 0 2
  current   := beU p 2 2
  capacity  := beU p 4 3
  remaining := beU p 7 1

/-- DEC_ATT(p), p of 6 bytes (rule R191). -/
def decAtt (p : List Byte) : Attitude Int where
  pitch := beS p 0 2
  roll  := beS p 2 2
  yaw   := beS p 4 2

/-- DEC_FM(p), p canonical: the payload without its terminator (rule R196). -/
def decFm (p : List Byte) : List Byte := p.dropLast

/-- DECODE(t, p) (rule R170): total; what no row takes is Unknown (rule R200). -/
def decodePayload (c : Config) (t : Byte) (p : List Byte) : Event :=
  if t == 0x16#8 && c.decodeSet.has .channels && p.length == 22 then .channels (unpack p)
  else if t == 0x14#8 && c.decodeSet.has .linkStats && p.length == 10 then .linkStats (decLink p)
  else if t == 0x02#8 && c.decodeSet.has .gps && p.length == 15 then .gps (decGps p)
  else if t == 0x08#8 && c.decodeSet.has .battery && p.length == 8 then .battery (decBatt p)
  else if t == 0x1E#8 && c.decodeSet.has .attitude && p.length == 6 then .attitude (decAtt p)
  else if t == 0x21#8 && c.decodeSet.has .flightMode && fmCanon p then .flightMode (decFm p)
  else .unknown t p

/-! ### Encoding -/

/-- `refuse(reason)` unless the condition holds (00_scope.md rule R10). -/
def orRefuse {α : Type} (ok : Bool) (why : Refusal) (a : α) : Except Refusal α :=
  if ok then .ok a else .error why

/-- PACK with its refusal (42_channels.md rule R152). -/
def encChannels (ch : Vector Int 16) : Except Refusal (List Byte) :=
  orRefuse (channelsOk ch) .channelOutOfRange (pack ch)

/-- ENC_LINK(r) (43_payload_codec.md rule R177). -/
def encLink (r : LinkStats Int) : Except Refusal (List Byte) :=
  orRefuse (LinkStats.zip Field.holds LinkStats.fields r).all .fieldOutOfRange
    (putBE r.upRssi1 1 ++ putBE r.upRssi2 1 ++ putBE r.upLq 1 ++ putBE r.upSnr 1 ++ putBE r.activeAnt 1 ++
      putBE r.rfMode 1 ++ putBE r.upTxPower 1 ++ putBE r.dnRssi 1 ++ putBE r.dnLq 1 ++ putBE r.dnSnr 1)

/-- ENC_GPS(r) (rule R182). -/
def encGps (r : Gps Int) : Except Refusal (List Byte) :=
  orRefuse (Gps.zip Field.holds Gps.fields r).all .fieldOutOfRange
    (putBE r.lat 4 ++ putBE r.lon 4 ++ putBE r.gspeed 2 ++ putBE r.heading 2 ++ putBE r.alt 2 ++ putBE r.sats 1)

/-- ENC_BATT(r) (rule R187). -/
def encBatt (r : Battery Int) : Except Refusal (List Byte) :=
  orRefuse (Battery.zip Field.holds Battery.fields r).all .fieldOutOfRange
    (putBE r.voltage 2 ++ putBE r.current 2 ++ putBE r.capacity 3 ++ putBE r.remaining 1)

/-- ENC_ATT(r) (rule R192). -/
def encAtt (r : Attitude Int) : Except Refusal (List Byte) :=
  orRefuse (Attitude.zip Field.holds Attitude.fields r).all .fieldOutOfRange
    (putBE r.pitch 2 ++ putBE r.roll 2 ++ putBE r.yaw 2)

/-- ENC_FM(r) (rule R197). -/
def encFm (c : Config) (label : List Byte) : Except Refusal (List Byte) :=
  orRefuse (labelOk c.lenMax label) .labelInvalid (label ++ [0x00#8])

/-- ENC_UNK(r) (rule R201). -/
def encUnk (c : Config) (bytes : List Byte) : Except Refusal (List Byte) :=
  orRefuse (c.fits bytes) .payloadTooLong bytes

/-- ENCODE(r) of a record of raw integers (rule R171). DECODE_SET is not consulted (92_eei_decisions.md D12). -/
def encodeRaw (c : Config) : Event → Except Refusal (Byte × List Byte)
  | .channels ch      => (encChannels ch).map fun p => (0x16#8, p)
  | .linkStats r      => (encLink r).map fun p => (0x14#8, p)
  | .gps r            => (encGps r).map fun p => (0x02#8, p)
  | .battery r        => (encBatt r).map fun p => (0x08#8, p)
  | .attitude r       => (encAtt r).map fun p => (0x1E#8, p)
  | .flightMode label => (encFm c label).map fun p => (0x21#8, p)
  | .unknown t bytes  => (encUnk c bytes).map fun p => (t, p)

/-- ENCODE(r) with physical values turned into raw fields first (rules R171 and R207). A record with both an
unrepresentable physical value and an out-of-range raw field is refused as NOT_REPRESENTABLE (log entry 8). -/
def encodePayload (c : Config) (r : Operand) : Except Refusal (Byte × List Byte) :=
  match r.toRaw with
  | some e => encodeRaw c e
  | none   => .error .notRepresentable

end Sys2Proof.Machine
end

