-- ==== Sys2Proof/Machine/Flags.lean ====
section
/-! DEFINITION. The status outputs. The block has no condition flags (10_state.md rule R29): what other machines show in
flags it returns in the status record of each push (rule R28). -/
namespace Sys2Proof.Machine

/-- The numeric code of a recovered condition (60_exceptions.md rule R250). -/
def Diag.code : Diag → Nat
  | .malformedLength => 1
  | .crcMismatch     => 2
  | .bufferOverflow  => 3

/-- `need_more`: a frame start is held after the push (10_state.md rule R28). -/
def Block.needMore (k : Block) : Bool := decide (0 < k.buf.length)

/-- The push's event: the last one it emitted (40_resync.md rule R100, `ev`). -/
def Scan.event (x : Scan) : Option Event := x.emitted.getLast?

/-- The status record a PUSH_BYTE returns, from the state after the push (10_state.md rule R28). -/
def pushStatus (event : Option Event) (diag : Option Diag) (k : Block) : PushStatus where
  event    := event
  consumed := 1
  needMore := k.needMore
  diag     := diag

/-- The record a PUSH_CHUNK of `n` bytes returns (40_resync.md rule R109). -/
def chunkStatus (n : Nat) (x : Chunk) : ChunkStatus where
  events   := x.events
  consumed := n
  needMore := x.block.needMore
  diags    := x.diags

/-- What READ_DIAG returns (60_exceptions.md rule R262). -/
def diagCounters (k : Block) : DiagCounters where
  malformedCnt := k.malformedCnt
  crcErrCnt    := k.crcErrCnt
  overflowCnt  := k.overflowCnt

end Sys2Proof.Machine
end

