-- ==== Sys2Proof/Machine/Ops.lean ====
section
/-! DEFINITION. The named operations over the state: the resynchronizer's scan (40_resync.md), the egress primitives
`emit` and `transmit` and the counters' `count` (00_scope.md rule R10), and the fetch of a frame from the received stream.
The block takes no exception and returns from none (60_exceptions.md rules R258, R259): a condition is recovered inside
the push that met it, by the scan steps below. -/
namespace Sys2Proof.Machine

/-! ### The resynchronizer -/

/-- `count(CTR)`: add 1 modulo 2^CNT_WIDTH (00_scope.md rule R10). -/
def count (n : Counter) : Counter := n + 1

/-- HUNT: drop the front byte, which is no sync byte (40_resync.md rule R103). -/
def hunt (x : Scan) : Scan :=
  { x with block := { x.block with buf := x.block.buf.drop 1 } }

/-- MALFORMED: drop the sync byte alone and count (40_resync.md rule R105). -/
def malformed (x : Scan) : Scan :=
  { x with
    block := { x.block with buf := x.block.buf.drop 1, malformedCnt := count x.block.malformedCnt }
    diag  := some .malformedLength }

/-- COMPLETE(L): the candidate of L + 2 bytes leaves the buffer; it is decoded and emitted when its CRC matches, and
counted when it does not (40_resync.md rule R107). -/
def complete (c : Config) (len : Nat) (x : Scan) : Scan :=
  let t   := x.block.buf.getD 2 0
  let p   := (x.block.buf.drop 3).take (len - 2)
  let crc := x.block.buf.getD (len + 1) 0
  let k   := { x.block with buf := x.block.buf.drop (len + 2) }
  if crcCheck t p crc then { x with block := k, emitted := x.emitted ++ [decodePayload c t p] }
  else { x with block := { k with crcErrCnt := count k.crcErrCnt }, diag := some .crcMismatch }

/-- SCAN: apply the first of HUNT, WAIT_LENGTH, MALFORMED, WAIT_FRAME and COMPLETE whose condition holds until the buffer
is quiescent (40_resync.md rule R102). Every step that goes on removes a byte, so the buffer's length is fuel enough. -/
def scan (c : Config) : Nat → Scan → Scan
  | 0, x => x
  | n + 1, x =>
    match x.block.buf with
    | [] => x
    | b :: rest =>
      if b != c.syncByte then scan c n (hunt x)
      else match rest with
        | [] => x
        | len :: body =>
          if !c.lengthOk len.toNat then scan c n (malformed x)
          else if body.length < len.toNat then x
          else scan c n (complete c len.toNat x)

/-- The overflow guard: when the buffer already holds BUF_CAP bytes, the oldest is dropped and counted (40_resync.md rule
R101). -/
def guardOverflow (c : Config) (k : Block) : Scan :=
  if k.buf.length = c.bufCap then
    { block   := { k with buf := k.buf.drop 1, overflowCnt := count k.overflowCnt }
      emitted := []
      diag    := some .bufferOverflow }
  else { block := k, emitted := [], diag := none }

/-- Append the pushed byte at the end of the buffer (40_resync.md rule R100). -/
def appendByte (b : Byte) (x : Scan) : Scan :=
  { x with block := { x.block with buf := x.block.buf ++ [b] } }

/-- The body of PUSH_BYTE(b): guard, append, scan (40_resync.md rule R100). -/
def push (c : Config) (b : Byte) (k : Block) : Scan :=
  let x := appendByte b (guardOverflow c k)
  scan c x.block.buf.length x

/-- One PUSH_BYTE of a chunk (40_resync.md rule R109). -/
def chunkStep (c : Config) (a : Chunk) (b : Byte) : Chunk :=
  let x := push c b a.block
  { block   := x.block
    emitted := a.emitted ++ x.emitted
    events  := a.events ++ x.event.toList
    diags   := a.diags ++ x.diag.toList }

/-- The pushes of a chunk, in order (40_resync.md rule R109). -/
def pushAll (c : Config) (bs : List Byte) (k : Block) : Chunk :=
  bs.foldl (chunkStep c) { block := k, emitted := [], events := [], diags := [] }

/-! ### Updates of the state -/

/-- The operation returns `r`. -/
def State.answer (r : Returned) (s : State) : State := { s with returned := r }

/-- `emit`: append events to the egress event sequence (00_scope.md rule R10; 20_memory.md rule R60). -/
def State.emit (es : List Event) (s : State) : State := { s with events := s.events ++ es }

/-- `transmit`: append a frame to the egress transmit sequence (00_scope.md rule R10; 20_memory.md rule R61). -/
def State.transmit (f : List Byte) (s : State) : State := { s with sent := s.sent ++ [f] }

/-- Write the block's state record. -/
def State.withBlock (k : Block) (s : State) : State := { s with block := k }

/-- Begin the interaction at the head of the host's queue: the queue goes on with `rest`, and the operation is issued
under `cfg`. -/
def State.begin (cfg : Config) (rest : List Request) (s : State) : State := { s with host := rest, issued := cfg }

/-! ### Shared bodies of the meanings -/

/-- Refuse an operation "issued under a configuration other than the one of the last RESET"
(70_reset_and_hazards.md rule R284). The configuration is checked before any operand, so CONFIG_CHANGED is the reason
recorded when an operand would be refused too; the spec gives no order between the two (DESIGN CHOICE, log entry 20). -/
def underConfig (s : State) (run : Host.Outcome State Fault Refusal) : Host.Outcome State Fault Refusal :=
  if s.issued = s.config then run else .refused .configChanged

/-- Deliver a valid frame's event: emit it and report it in the status of the push that completed the frame (40_resync.md
rules R100, R107; 10_state.md rule R28). -/
def deliver (e : Event) (s : State) : Host.Outcome State Fault Refusal :=
  .next ((s.emit [e]).answer (.pushStatus (pushStatus (some e) none s.block)))

/-- Build a frame and transmit it, or refuse a payload that is too long (44_frame_encoder.md rule R230). -/
def sendFrame (t : Byte) (p : List Byte) (s : State) : Host.Outcome State Fault Refusal :=
  if s.config.fits p then
    .next ((s.transmit (s.config.frameBytes t p)).answer (.frame (s.config.frameBytes t p)))
  else .refused .payloadTooLong

/-! ### Fetching from the received stream -/

/-- The stretch of stream that is left, as the head of the host's queue; nothing when it is used up. -/
def wireRest (cfg : Config) (bytes : List Byte) (rest : List Request) : List Request :=
  match bytes with
  | []     => rest
  | b :: bs => { config := cfg, item := .wire (b :: bs) } :: rest

/-- The frame row at the front of the stream, when the block holds no partial frame and the stream begins with a whole
valid frame (30_encoding.md rule R79). -/
def fetchFrame (s : State) (bytes : List Byte) : Option (Instr × List Byte) :=
  match s.block.buf with
  | [] =>
    match decode s.config bytes with
    | .ok r    => some r
    | .error _ => none
  | _ :: _ => none

/-- The instruction a host operation is. -/
def HostOp.instr : HostOp → Instr
  | .pushByte b      => .pushByte b
  | .pushChunk bs    => .pushChunk bs
  | .crc8 x          => .crc8 x
  | .crcCheck t p c  => .crcCheck t p c
  | .unpack p        => .unpack p
  | .pack ch         => .pack ch
  | .decode t p      => .decode t p
  | .encode r        => .encode r
  | .frameEncode t p => .frameEncode t p
  | .encodeRecord r  => .encodeRecord r
  | .readDiag        => .readDiag
  | .reset cfg       => .reset cfg

/-- What the machine runs next, and the state it runs it in. -/
inductive Fetched where
  /-- The host has nothing pending. -/
  | idle
  /-- An empty stretch of stream, which is only taken off the queue. -/
  | nothingToPush (s : State)
  /-- An instruction to run. -/
  | run (i : Instr) (s : State)
  deriving DecidableEq, Repr

/-- Take the next unit of work from the head of the host's queue: a requested operation; a whole valid frame at a frame
boundary of the stream; otherwise the stream's next byte as a PUSH_BYTE (20_memory.md rules R51, R57, R63). -/
def fetch (s : State) : Fetched :=
  match s.host with
  | [] => .idle
  | r :: rest =>
    match r.item with
    | .op h => .run h.instr (s.begin r.config rest)
    | .wire [] => .nothingToPush (s.begin r.config rest)
    | .wire (b :: bs) =>
      match fetchFrame s (b :: bs) with
      | some (i, tail) => .run i (s.begin r.config (wireRest r.config tail rest))
      | none           => .run (.pushByte b) (s.begin r.config (wireRest r.config bs rest))

end Sys2Proof.Machine
end

