-- ==== Sys2Proof/Machine/Encoder.lean ====
section
/-! DEFINITION. The frame encoder (44_frame_encoder.md): FRAME_ENCODE and ENCODE_RECORD. It holds no state and reads none
of the resynchronizer's (rule R233). -/
namespace Sys2Proof.Machine

/-- FRAME_ENCODE(t, p) (44_frame_encoder.md rule R230). -/
def execFrameEncode (t : Byte) (p : List Byte) (s : State) : Host.Outcome State Fault Refusal :=
  underConfig s (sendFrame t p s)

/-- ENCODE_RECORD(r) (44_frame_encoder.md rule R231): "A refused request transmits nothing". -/
def execEncodeRecord (r : Operand) (s : State) : Host.Outcome State Fault Refusal :=
  underConfig s <|
    match encodePayload s.config r with
    | .ok (t, p) => sendFrame t p s
    | .error why => .refused why

end Sys2Proof.Machine
end

