-- ==== Sys2Proof/Machine/FrameRows.lean ====
section
/-! DEFINITION. The seven frame rows. A frame row runs when its frame has been delimited and validated (40_resync.md rule
R107): it decodes the payload by the row's layout and delivers the record, or delivers Unknown when the row does not take
the payload under the configuration (30_encoding.md rules R74, R77). -/
namespace Sys2Proof.Machine

/-- CHANNELS (42_channels.md rule R155). -/
def execChannels (p : List Byte) (s : State) : Host.Outcome State Fault Refusal :=
  underConfig s <|
    if s.config.decodeSet.has .channels && KnownType.formOk .channels p then deliver (.channels (unpack p)) s
    else deliver (.unknown 0x16#8 p) s

/-- LINK_STATS (43_payload_codec.md rule R176). -/
def execLinkStats (p : List Byte) (s : State) : Host.Outcome State Fault Refusal :=
  underConfig s <|
    if s.config.decodeSet.has .linkStats && KnownType.formOk .linkStats p then deliver (.linkStats (decLink p)) s
    else deliver (.unknown 0x14#8 p) s

/-- GPS (rule R181). -/
def execGps (p : List Byte) (s : State) : Host.Outcome State Fault Refusal :=
  underConfig s <|
    if s.config.decodeSet.has .gps && KnownType.formOk .gps p then deliver (.gps (decGps p)) s
    else deliver (.unknown 0x02#8 p) s

/-- BATTERY (rule R186). -/
def execBattery (p : List Byte) (s : State) : Host.Outcome State Fault Refusal :=
  underConfig s <|
    if s.config.decodeSet.has .battery && KnownType.formOk .battery p then deliver (.battery (decBatt p)) s
    else deliver (.unknown 0x08#8 p) s

/-- ATTITUDE (rule R191). -/
def execAttitude (p : List Byte) (s : State) : Host.Outcome State Fault Refusal :=
  underConfig s <|
    if s.config.decodeSet.has .attitude && KnownType.formOk .attitude p then deliver (.attitude (decAtt p)) s
    else deliver (.unknown 0x1E#8 p) s

/-- FLIGHT_MODE (rule R196). -/
def execFlightMode (p : List Byte) (s : State) : Host.Outcome State Fault Refusal :=
  underConfig s <|
    if s.config.decodeSet.has .flightMode && KnownType.formOk .flightMode p then deliver (.flightMode (decFm p)) s
    else deliver (.unknown 0x21#8 p) s

/-- UNKNOWN (rule R200): a frame that no row takes is delivered with its type and payload unchanged. The block's dispatch
decides, so a frame that a row does take is delivered as that row's record. -/
def execUnknown (t : Byte) (p : List Byte) (s : State) : Host.Outcome State Fault Refusal :=
  underConfig s <|
    match s.config.rowOf t p with
    | none   => deliver (.unknown t p) s
    | some _ => deliver (decodePayload s.config t p) s

end Sys2Proof.Machine
end

