-- ==== Sys2Proof/Machine/PureOps.lean ====
section
/-! DEFINITION. The operations that are pure functions of their operands (20_memory.md rule R59): CRC8, CRC_CHECK, UNPACK,
PACK, DECODE and ENCODE. They write no state of the block; their result is the operation's return value. -/
namespace Sys2Proof.Machine

/-- CRC8(s) (41_crc.md rule R130). -/
def execCrc8 (x : List Byte) (s : State) : Host.Outcome State Fault Refusal :=
  underConfig s (.next (s.answer (.crc (crc8 x))))

/-- CRC_CHECK(t, p, c) (41_crc.md rule R132). -/
def execCrcCheck (t : Byte) (p : List Byte) (c : Byte) (s : State) : Host.Outcome State Fault Refusal :=
  underConfig s (.next (s.answer (.crcOk (crcCheck t p c))))

/-- UNPACK(p) (42_channels.md rule R151). -/
def execUnpack (p : Vector Byte 22) (s : State) : Host.Outcome State Fault Refusal :=
  underConfig s (.next (s.answer (.channels (unpack p.toList))))

/-- PACK(ch): a value outside 0 to 2047 is refused, not masked (42_channels.md rule R152). -/
def execPack (ch : Vector Int 16) (s : State) : Host.Outcome State Fault Refusal :=
  underConfig s <|
    if channelsOk ch then .next (s.answer (.payload (pack ch))) else .refused .channelOutOfRange

/-- DECODE(t, p) (43_payload_codec.md rule R170): the record is returned, not emitted. -/
def execDecode (t : Byte) (p : List Byte) (s : State) : Host.Outcome State Fault Refusal :=
  underConfig s (.next (s.answer (.record (decodePayload s.config t p))))

/-- ENCODE(r) (43_payload_codec.md rules R171, R207). -/
def execEncode (r : Operand) (s : State) : Host.Outcome State Fault Refusal :=
  underConfig s <|
    match encodePayload s.config r with
    | .ok (t, p) => .next (s.answer (.typeAndPayload t p))
    | .error why => .refused why

end Sys2Proof.Machine
end

