-- ==== Sys2Proof/Machine/Resync.lean ====
section
/-! DEFINITION. The resynchronizer's operations, PUSH_BYTE and PUSH_CHUNK (40_resync.md rules R100, R109). -/
namespace Sys2Proof.Machine

/-- PUSH_BYTE(b): the byte is never refused and always consumed (40_resync.md rule R100). -/
def execPushByte (b : Byte) (s : State) : Host.Outcome State Fault Refusal :=
  underConfig s <|
    let x := push s.config b s.block
    .next (((s.withBlock x.block).emit x.emitted).answer (.pushStatus (pushStatus x.event x.diag x.block)))

/-- PUSH_CHUNK(bs): PUSH_BYTE of each byte in order (40_resync.md rule R109). -/
def execPushChunk (bs : List Byte) (s : State) : Host.Outcome State Fault Refusal :=
  underConfig s <|
    let x := pushAll s.config bs s.block
    .next (((s.withBlock x.block).emit x.emitted).answer (.chunkStatus (chunkStatus bs.length x)))

end Sys2Proof.Machine
end

