-- ==== Sys2Proof/Machine/System.lean ====
section
/-! DEFINITION. The system operations: READ_DIAG (60_exceptions.md rule R262) and RESET (70_reset_and_hazards.md rule
R280). -/
namespace Sys2Proof.Machine

/-- READ_DIAG(): reading does not clear the counters (60_exceptions.md rule R262). -/
def execReadDiag (s : State) : Host.Outcome State Fault Refusal :=
  underConfig s (.next (s.answer (.counters (diagCounters s.block))))

/-- RESET(cfg): an illegal configuration is refused; a legal one is put in force, the buffer is emptied and the counters
are cleared (70_reset_and_hazards.md rules R280, R282). Events and bytes already delivered stay delivered (10_state.md
rule R34). RESET is the one operation that may be issued under another configuration than the last RESET's (rule R284);
after it the host issues under the configuration it chose (log entry 3). -/
def execReset (cfg : Config) (s : State) : Host.Outcome State Fault Refusal :=
  if cfg.legal then .next { s with block := Block.reset, config := cfg, issued := cfg, returned := .nothing }
  else .refused .configIllegal

end Sys2Proof.Machine
end

