-- ==== Sys2Proof/Machine/Dispatch.lean ====
section
/-! DEFINITION. The dispatch: one meaning per instruction. -/
namespace Sys2Proof.Machine

/-- Run one instruction. -/
def exec (i : Instr) (s : State) : Host.Outcome State Fault Refusal :=
  match i with
  -- frames of the received stream
  | .channels p => Sys2Proof.Machine.execChannels p s
  | .linkStats p => Sys2Proof.Machine.execLinkStats p s
  | .gps p => Sys2Proof.Machine.execGps p s
  | .battery p => Sys2Proof.Machine.execBattery p s
  | .attitude p => Sys2Proof.Machine.execAttitude p s
  | .flightMode p => Sys2Proof.Machine.execFlightMode p s
  | .unknown t p => Sys2Proof.Machine.execUnknown t p s
  -- the resynchronizer
  | .pushByte b => Sys2Proof.Machine.execPushByte b s
  | .pushChunk bs => Sys2Proof.Machine.execPushChunk bs s
  -- pure operations
  | .crc8 x => Sys2Proof.Machine.execCrc8 x s
  | .crcCheck t p c => Sys2Proof.Machine.execCrcCheck t p c s
  | .unpack p => Sys2Proof.Machine.execUnpack p s
  | .pack ch => Sys2Proof.Machine.execPack ch s
  | .decode t p => Sys2Proof.Machine.execDecode t p s
  | .encode r => Sys2Proof.Machine.execEncode r s
  -- the frame encoder
  | .frameEncode t p => Sys2Proof.Machine.execFrameEncode t p s
  | .encodeRecord r => Sys2Proof.Machine.execEncodeRecord r s
  -- system
  | .readDiag => Sys2Proof.Machine.execReadDiag s
  | .reset cfg => Sys2Proof.Machine.execReset cfg s

end Sys2Proof.Machine
end

