-- ==== Sys2Proof/Machine/Step.lean ====
section
/-! DEFINITION. One step of the machine: the next unit of work from the host's queue, run as one indivisible transaction
(20_memory.md rule R58). -/
namespace Sys2Proof.Machine

/-- One step. With nothing pending the block "does nothing and keeps all its state" (60_exceptions.md rule R264). -/
def step (s : State) : Host.Outcome State Fault Refusal :=
  match fetch s with
  | .idle            => .next s
  | .nothingToPush t => .next t
  | .run i t         => exec i t

/-- The state `s` with the frame that the opcode table's bits stand for waiting at the front of the received stream, at a
frame boundary (no partial frame held), so that the next step fetches and runs it (log entries 5 and 6). -/
def State.withFetchWord (s : State) (nbits w : Nat) : State :=
  { s with
    block := { s.block with buf := [] }
    host  := { config := s.config, item := .wire (s.config.tableFrame nbits w) } :: s.host }

end Sys2Proof.Machine
end

