-- ==== Sys2Proof/Safety.lean ====
section
/-! DEFINITION. What the claims speak of: the quiescent shapes of the buffer (10_state.md rule R32), valid transmitted
frames, the invariant of the machine, and pushing bytes one transaction at a time. -/
namespace Sys2Proof.Machine

/-- The phase Q2 of the buffer: sync, a length in range, and fewer bytes than the frame needs (10_state.md rule R32). -/
def inFrame (c : Config) (buf : List Byte) : Bool :=
  match buf with
  | s :: len :: body => s == c.syncByte && c.lengthOk len.toNat && decide (body.length < len.toNat)
  | _                => false

/-- The buffer is quiescent: Q0 empty, Q1 a sync byte alone, or Q2 (10_state.md rule R32). -/
def quiescent (c : Config) (buf : List Byte) : Bool := buf == [] || buf == [c.syncByte] || inFrame c buf

/-- A transmitted frame as 30_encoding.md rule R70 lays it out: 4 to 64 bytes, a length byte that counts the bytes after
it, and a CRC that checks (41_crc.md rule R134). -/
def validFrame (f : List Byte) : Bool :=
  match f with
  | _ :: len :: body =>
    decide (2 ≤ len.toNat) && decide (len.toNat ≤ 62) && len.toNat == body.length && crc8 body == 0#8
  | _ => false

/-- The invariant: a legal configuration, a quiescent buffer, no overflow ever counted (40_resync.md rule R108), every
delivered event within the widths of 10_state.md rule R33 at the largest LEN_MAX, and every transmitted frame valid. -/
structure State.Inv (s : State) : Prop where
  legal    : s.config.legal = true
  quiet    : quiescent s.config s.block.buf = true
  overflow : s.block.overflowCnt = 0
  events   : ∀ e ∈ s.events, Record.inWidths 62 e = true
  sent     : ∀ f ∈ s.sent, validFrame f = true

/-- PUSH_BYTE of each byte in order, as that many transactions. -/
def pushEach : List Byte → State → Host.Outcome State Fault Refusal
  | [], s      => .next s
  | b :: bs, s =>
    match exec (.pushByte b) s with
    | .next t    => pushEach bs t
    | .fault r   => .fault r
    | .refused r => .refused r

/-- The status record a state's latest operation returned, if that was a push. -/
def State.status (s : State) : Option PushStatus :=
  match s.returned with
  | .pushStatus st => some st
  | _              => none

/-- The status records of pushing bytes one transaction at a time, in order. -/
def pushStatuses : List Byte → State → List PushStatus
  | [], _      => []
  | b :: bs, s =>
    match exec (.pushByte b) s with
    | .next t    => t.status.toList ++ pushStatuses bs t
    | .fault _   => []
    | .refused _ => []

/-- The state after a valid frame's event has been delivered: the event is appended to the egress and reported in the
status of the push that completed the frame (40_resync.md rules R100, R107; 10_state.md rule R28). -/
def State.delivered (e : Event) (s : State) : State :=
  { s with
    events   := s.events ++ [e]
    returned := .pushStatus { event := some e, consumed := 1, needMore := decide (s.block.buf ≠ []), diag := none } }

/-- An error pattern over checked bytes: bit flips, byte by byte (41_crc.md rule R135). -/
def xorBytes (w e : List Byte) : List Byte := List.zipWith (fun a b => a ^^^ b) w e

/-- How many bits of the bytes are set. -/
def weight (e : List Byte) : Nat := (e.map fun b => (List.range 8).countP fun i => b.getLsbD i).sum

/-- The proviso of 40_resync.md rule R111 on garbage `g` that `rest` follows: "no candidate frame that starts inside G
reaches past the end of G". -/
def noCandidateReachesPast (c : Config) (g rest : List Byte) : Prop :=
  ∀ i < g.length, g.getD i 0 = c.syncByte → c.lengthOk ((g ++ rest).getD (i + 1) 0).toNat = true →
    i + ((g ++ rest).getD (i + 1) 0).toNat + 2 ≤ g.length

/-- No candidate frame that lies inside garbage `g` passes its CRC check by chance (70_reset_and_hazards.md rule R288). -/
def noChanceFrame (c : Config) (g : List Byte) : Prop :=
  ∀ i < g.length, ∀ r, decode c (g.drop i) ≠ .ok r

/-- A numeric field as the spec's numbers give it (43_payload_codec.md rules R206, R207): its raw values are the integers
`lo` to `hi`; the physical value of `n` is `n * scale + offset`; and the physical value `v` encodes as `n` exactly when
`n` is a raw value whose physical value is `v`. -/
def Field.Scaled (f : Field) (lo hi : Int) (scale offset : Rat) : Prop :=
  (∀ n : Int, f.holds n = true ↔ lo ≤ n ∧ n ≤ hi) ∧
  (∀ n : Int, f.physical n = some ((n : Rat) * scale + offset)) ∧
  ∀ (v : Rat) (n : Int), f.ofPhysical v = some n ↔ lo ≤ n ∧ n ≤ hi ∧ v = (n : Rat) * scale + offset

/-- A numeric field with no scale (43_payload_codec.md rule R178): its raw values are the integers `lo` to `hi`, and it has
no physical value in either direction (log entry 10). -/
def Field.Unscaled (f : Field) (lo hi : Int) : Prop :=
  (∀ n : Int, f.holds n = true ↔ lo ≤ n ∧ n ≤ hi) ∧ (∀ n : Int, f.physical n = none) ∧ ∀ v : Rat, f.ofPhysical v = none

/-- The numeric fields of an encode request, in payload order, each with the value the request gives it. -/
def Record.numericFields : Operand → List (Field × Val)
  | .channels _   => []
  | .linkStats r  => (LinkStats.zip Prod.mk LinkStats.fields r).toList
  | .gps r        => (Gps.zip Prod.mk Gps.fields r).toList
  | .battery r    => (Battery.zip Prod.mk Battery.fields r).toList
  | .attitude r   => (Attitude.zip Prod.mk Attitude.fields r).toList
  | .flightMode _ => []
  | .unknown _ _  => []

/-- The next state, when there is one. -/
def nextState : Host.Outcome State Fault Refusal → Option State
  | .next s    => some s
  | .fault _   => none
  | .refused _ => none

/-- The refusal, when there is one. -/
def refusalOf : Host.Outcome State Fault Refusal → Option Refusal
  | .next _    => none
  | .fault _   => none
  | .refused r => some r

end Sys2Proof.Machine
end

