-- ==== Sys2Proof/Certificates/Slice0/Obligations.lean ====
section
/-! DEFINITION. The statements for the provers. Each docstring names the rule of spec/ it formalises, and says where it
rests on a decision of the spec (92_eei_decisions.md), on a passage the spec marks as general knowledge
(93_implementation_defined.md section 2), or on a choice of the model (a log entry). -/

open Sys2Proof Sys2Proof.Machine

/-! ### Decoding, encoding, and the step -/

/-- The frames of 95_test_vectors.md sections 1.1, 2.2 and 2.4 decode to the rows they stand for; bytes that are no valid
frame are rejected by name. The type codes other than 0x16 are general knowledge (G3). -/
def Obligations.SpecFramesDecodeToTheirRows : Prop :=
  decode Config.default
      [0xC8#8, 0x18#8, 0x16#8, 0x00#8, 0x08#8, 0x80#8, 0x00#8, 0x06#8, 0x40#8, 0x80#8, 0x02#8, 0x18#8, 0xE0#8, 0x00#8,
        0x08#8, 0x48#8, 0x80#8, 0x02#8, 0x16#8, 0xC0#8, 0x80#8, 0x06#8, 0x38#8, 0xE0#8, 0x01#8, 0x20#8] =
    .ok (.channels [0x00#8, 0x08#8, 0x80#8, 0x00#8, 0x06#8, 0x40#8, 0x80#8, 0x02#8, 0x18#8, 0xE0#8, 0x00#8, 0x08#8,
      0x48#8, 0x80#8, 0x02#8, 0x16#8, 0xC0#8, 0x80#8, 0x06#8, 0x38#8, 0xE0#8, 0x01#8], []) ∧
  decode Config.default [0xC8#8, 0x0A#8, 0x08#8, 0x00#8, 0xA8#8, 0x00#8, 0x7B#8, 0x00#8, 0x05#8, 0xDC#8, 0x4B#8, 0x29#8] =
    .ok (.battery [0x00#8, 0xA8#8, 0x00#8, 0x7B#8, 0x00#8, 0x05#8, 0xDC#8, 0x4B#8], []) ∧
  decode Config.default [0xC8#8, 0x08#8, 0x1E#8, 0x03#8, 0xE8#8, 0xF8#8, 0x30#8, 0x7A#8, 0xB8#8, 0xAC#8] =
    .ok (.attitude [0x03#8, 0xE8#8, 0xF8#8, 0x30#8, 0x7A#8, 0xB8#8], []) ∧
  decode Config.default [0xC8#8, 0x03#8, 0x21#8, 0x00#8, 0xBE#8, 0xC8#8] = .ok (.flightMode [0x00#8], [0xC8#8]) ∧
  decode Config.default [0xC8#8, 0x02#8, 0x7F#8, 0x16#8] = .ok (.unknown 0x7F#8 [], []) ∧
  decode Config.default [0xC8#8, 0x05#8, 0x7F#8, 0x01#8, 0x02#8, 0x03#8, 0x87#8] = .error .crcMismatch ∧
  decode Config.default [0xC8#8, 0x3F#8, 0x00#8] = .error .malformedLength ∧
  decode Config.default [0xC8#8, 0x0C#8, 0x14#8] = .error .needMore ∧
  decode Config.default [0x00#8, 0xC8#8] = .error .notSync

/-- Decoding the bytes of a well-formed frame row, with any bytes after them, gives back the row with its whole payload and
the bytes after it, under every configuration (30_encoding.md rules R70, R71, R74, R79). -/
def Obligations.DecodeInvertsEncode : Prop :=
  ∀ (c : Config) (i : Instr) (rest : List Byte), i.wellFormed c = true → i.isFrame = true →
    ∃ f, encode c i = some f ∧ decode c (f ++ rest) = .ok (i, rest)

/-- Every frame the decoder accepts is the encoding of exactly the row it gives, which is well formed; so a frame's bytes
have one meaning (30_encoding.md rules R70, R74, R79). -/
def Obligations.EncodeInvertsDecode : Prop :=
  ∀ (c : Config) (bytes : List Byte) (i : Instr) (rest : List Byte), decode c bytes = .ok (i, rest) →
    i.wellFormed c = true ∧ i.isFrame = true ∧ ∃ f, encode c i = some f ∧ bytes = f ++ rest

/-- One step runs the next unit of the host's work: nothing when nothing is pending (60_exceptions.md rule R264); the
operation at the head of the queue; a whole valid frame at a frame boundary of the stream; the stream's next byte as a
PUSH_BYTE otherwise. What the step adds around `exec` is the queue's advance and the configuration the interaction is
issued under. How pending work is held is the model's choice (log entry 4). -/
def Obligations.StepRunsTheNextUnitOfWork : Prop :=
  (∀ s : State, s.host = [] → step s = .next s) ∧
  (∀ (s : State) (cfg : Config) (h : HostOp) (rest : List Request), s.host = { config := cfg, item := .op h } :: rest →
    step s = exec h.instr { s with host := rest, issued := cfg }) ∧
  (∀ (s : State) (cfg : Config) (bytes tail : List Byte) (rest : List Request) (i : Instr),
    s.host = { config := cfg, item := .wire bytes } :: rest → s.block.buf = [] → decode s.config bytes = .ok (i, tail) →
    step s = exec i { s with host := wireRest cfg tail rest, issued := cfg }) ∧
  (∀ (s : State) (cfg : Config) (b : Byte) (bs : List Byte) (rest : List Request),
    s.host = { config := cfg, item := .wire (b :: bs) } :: rest →
    (s.block.buf ≠ [] ∨ ∀ r, decode s.config (b :: bs) ≠ .ok r) →
    step s = exec (.pushByte b) { s with host := wireRest cfg bs rest, issued := cfg }) ∧
  (∀ (s : State) (cfg : Config) (rest : List Request), s.host = { config := cfg, item := .wire [] } :: rest →
    step s = .next { s with host := rest, issued := cfg })

/-! ### The frame rows -/

/-- CHANNELS: a frame of 22 payload bytes delivers 16 values, bit j of channel i being payload bit 11i + j, that is bit
(11i + j) mod 8 of byte (11i + j) div 8, with nothing else written (42_channels.md rules R151, R153, R155; 20_memory.md
rule R54). -/
def Obligations.ChannelsFrameDelivers : Prop :=
  ∀ (s : State) (p : List Byte), s.issued = s.config → s.config.decodeSet.channels = true → p.length = 22 →
    ∃ ch : Vector Int 16, exec (.channels p) s = .next (s.delivered (.channels ch)) ∧
      ∀ (i j : Nat) (h : i < 16), 0 ≤ ch[i] ∧ ch[i] ≤ 2047 ∧
        (j < 11 → ch[i].toNat.testBit j = (p.getD ((11 * i + j) / 8) 0).getLsbD ((11 * i + j) % 8))

/-- LINK_STATS: each of the ten bytes is one field, the two SNR fields two's complement; no field is range-checked
(43_payload_codec.md rules R175, R176, R208). The layout is general knowledge (D9, G5). -/
def Obligations.LinkStatsFrameDelivers : Prop :=
  ∀ (s : State) (b0 b1 b2 b3 b4 b5 b6 b7 b8 b9 : Byte), s.issued = s.config → s.config.decodeSet.linkStats = true →
    exec (.linkStats [b0, b1, b2, b3, b4, b5, b6, b7, b8, b9]) s = .next (s.delivered (.linkStats
      { upRssi1 := b0.toNat, upRssi2 := b1.toNat, upLq := b2.toNat, upSnr := b3.toInt, activeAnt := b4.toNat,
        rfMode := b5.toNat, upTxPower := b6.toNat, dnRssi := b7.toNat, dnLq := b8.toNat, dnSnr := b9.toInt }))

/-- GPS: big-endian fields, the coordinates two's complement of 32 bits (43_payload_codec.md rules R180, R181;
20_memory.md rule R53). The layout and byte order are general knowledge (D9, G4, G8). -/
def Obligations.GpsFrameDelivers : Prop :=
  ∀ (s : State) (b0 b1 b2 b3 b4 b5 b6 b7 b8 b9 b10 b11 b12 b13 b14 : Byte),
    s.issued = s.config → s.config.decodeSet.gps = true →
    exec (.gps [b0, b1, b2, b3, b4, b5, b6, b7, b8, b9, b10, b11, b12, b13, b14]) s = .next (s.delivered (.gps
      { lat := (b0 ++ b1 ++ b2 ++ b3).toInt, lon := (b4 ++ b5 ++ b6 ++ b7).toInt, gspeed := (b8 ++ b9).toNat,
        heading := (b10 ++ b11).toNat, alt := (b12 ++ b13).toNat, sats := b14.toNat }))

/-- BATTERY: big-endian unsigned fields of 16, 16, 24 and 8 bits (43_payload_codec.md rules R185, R186; 20_memory.md rule
R53). The layout is general knowledge (D9, G9). -/
def Obligations.BatteryFrameDelivers : Prop :=
  ∀ (s : State) (b0 b1 b2 b3 b4 b5 b6 b7 : Byte), s.issued = s.config → s.config.decodeSet.battery = true →
    exec (.battery [b0, b1, b2, b3, b4, b5, b6, b7]) s = .next (s.delivered (.battery
      { voltage := (b0 ++ b1).toNat, current := (b2 ++ b3).toNat, capacity := (b4 ++ b5 ++ b6).toNat,
        remaining := b7.toNat }))

/-- ATTITUDE: three big-endian two's-complement fields of 16 bits (43_payload_codec.md rules R190, R191; 20_memory.md rule
R53). The layout is general knowledge (D9, G10). -/
def Obligations.AttitudeFrameDelivers : Prop :=
  ∀ (s : State) (b0 b1 b2 b3 b4 b5 : Byte), s.issued = s.config → s.config.decodeSet.attitude = true →
    exec (.attitude [b0, b1, b2, b3, b4, b5]) s = .next (s.delivered (.attitude
      { pitch := (b0 ++ b1).toInt, roll := (b2 ++ b3).toInt, yaw := (b4 ++ b5).toInt }))

/-- FLIGHT_MODE: a label with no 0x00 followed by one 0x00 delivers the label (43_payload_codec.md rules R195, R196). The
terminated form is general knowledge (D11, G11). -/
def Obligations.FlightModeFrameDelivers : Prop :=
  ∀ (s : State) (label : List Byte), s.issued = s.config → s.config.decodeSet.flightMode = true →
    (∀ b ∈ label, b ≠ 0x00#8) →
    exec (.flightMode (label ++ [0x00#8])) s = .next (s.delivered (.flightMode label))

/-- UNKNOWN: a frame whose code, DECODE_SET and payload match no row is delivered with its type and payload unchanged
(43_payload_codec.md rule R200; 30_encoding.md rule R76). -/
def Obligations.UnknownFrameDelivers : Prop :=
  ∀ (s : State) (t : Byte) (p : List Byte), s.issued = s.config →
    ¬ (t = 0x16#8 ∧ s.config.decodeSet.channels = true ∧ p.length = 22) →
    ¬ (t = 0x14#8 ∧ s.config.decodeSet.linkStats = true ∧ p.length = 10) →
    ¬ (t = 0x02#8 ∧ s.config.decodeSet.gps = true ∧ p.length = 15) →
    ¬ (t = 0x08#8 ∧ s.config.decodeSet.battery = true ∧ p.length = 8) →
    ¬ (t = 0x1E#8 ∧ s.config.decodeSet.attitude = true ∧ p.length = 6) →
    ¬ (t = 0x21#8 ∧ s.config.decodeSet.flightMode = true ∧ ∃ label, p = label ++ [0x00#8] ∧ ∀ b ∈ label, b ≠ 0x00#8) →
    exec (.unknown t p) s = .next (s.delivered (.unknown t p))

/-- A frame of a known code whose payload has not the row's length or form, or whose type is outside DECODE_SET, is
delivered as Unknown with its type and payload unchanged (30_encoding.md rules R74, R77; 92_eei_decisions.md D10, D12). -/
def Obligations.KnownCodeOfWrongShapeIsUnknown : Prop :=
  ∀ (s : State) (p : List Byte), s.issued = s.config →
    (s.config.decodeSet.channels = false ∨ p.length ≠ 22 →
      exec (.channels p) s = .next (s.delivered (.unknown 0x16#8 p))) ∧
    (s.config.decodeSet.linkStats = false ∨ p.length ≠ 10 →
      exec (.linkStats p) s = .next (s.delivered (.unknown 0x14#8 p))) ∧
    (s.config.decodeSet.gps = false ∨ p.length ≠ 15 →
      exec (.gps p) s = .next (s.delivered (.unknown 0x02#8 p))) ∧
    (s.config.decodeSet.battery = false ∨ p.length ≠ 8 →
      exec (.battery p) s = .next (s.delivered (.unknown 0x08#8 p))) ∧
    (s.config.decodeSet.attitude = false ∨ p.length ≠ 6 →
      exec (.attitude p) s = .next (s.delivered (.unknown 0x1E#8 p))) ∧
    (s.config.decodeSet.flightMode = false ∨ (∀ label, p = label ++ [0x00#8] → 0x00#8 ∈ label) →
      exec (.flightMode p) s = .next (s.delivered (.unknown 0x21#8 p)))

/-- DECODE(t, p) returns, for every type and payload, the very record that the frame of that type and payload delivers,
and writes nothing else (43_payload_codec.md rule R170; 40_resync.md rule R107). -/
def Obligations.DecodeReturnsWhatTheFrameDelivers : Prop :=
  ∀ (s : State) (i : Instr) (t : Byte) (p : List Byte), s.issued = s.config → i.typeAndPayload = some (t, p) →
    ∃ e : Event, exec (.decode t p) s = .next { s with returned := .record e } ∧ exec i s = .next (s.delivered e)

/-- Every record DECODE returns for a payload that fits a frame is within the exact field widths and length limits of
10_state.md rule R33, and DECODE completes on every type and payload: "DECODE is total: every (t, p) gives a record"
(43_payload_codec.md rule R170). -/
def Obligations.DecodedRecordsAreWithinTheirWidths : Prop :=
  ∀ (s : State) (t : Byte) (p : List Byte), s.issued = s.config → s.config.fits p = true →
    ∃ e : Event, exec (.decode t p) s = .next { s with returned := .record e } ∧
      Record.inWidths s.config.lenMax e = true

/-! ### The resynchronizer -/

/-- PUSH_BYTE from each quiescent shape of the buffer, case by case as 40_resync.md rule R108 lists them: HUNT (R103),
WAIT_LENGTH (R104), MALFORMED (R105), WAIT_FRAME (R106) and COMPLETE (R107), under every legal configuration, SYNC_BYTE
values that are also lengths included (R113). -/
def Obligations.PushByteFromEachQuiescentShape : Prop :=
  ∀ (s : State) (b : Byte), s.issued = s.config → s.config.legal = true →
    (s.block.buf = [] →
      exec (.pushByte b) s = .next { s with
        block    := { s.block with buf := if b = s.config.syncByte then [b] else [] }
        returned := .pushStatus
          { event := none, consumed := 1, needMore := decide (b = s.config.syncByte), diag := none } }) ∧
    (s.block.buf = [s.config.syncByte] → ¬ (2 ≤ b.toNat ∧ b.toNat ≤ s.config.lenMax) →
      exec (.pushByte b) s = .next { s with
        block    := { s.block with
          buf          := if b = s.config.syncByte then [b] else []
          malformedCnt := s.block.malformedCnt + 1 }
        returned := .pushStatus
          { event := none, consumed := 1, needMore := decide (b = s.config.syncByte), diag := some .malformedLength } }) ∧
    (s.block.buf = [s.config.syncByte] → 2 ≤ b.toNat → b.toNat ≤ s.config.lenMax →
      exec (.pushByte b) s = .next { s with
        block    := { s.block with buf := [s.config.syncByte, b] }
        returned := .pushStatus { event := none, consumed := 1, needMore := true, diag := none } }) ∧
    (∀ (len : Byte) (body : List Byte), s.block.buf = s.config.syncByte :: len :: body →
      len.toNat ≤ s.config.lenMax → body.length + 1 < len.toNat →
      exec (.pushByte b) s = .next { s with
        block    := { s.block with buf := s.config.syncByte :: len :: (body ++ [b]) }
        returned := .pushStatus { event := none, consumed := 1, needMore := true, diag := none } }) ∧
    (∀ (len t : Byte) (p : List Byte), s.block.buf = s.config.syncByte :: len :: t :: p →
      len.toNat ≤ s.config.lenMax → p.length + 2 = len.toNat → crc8 ([t] ++ p) = b →
      exec (.pushByte b) s = .next { s with
        block    := { s.block with buf := [] }
        events   := s.events ++ [decodePayload s.config t p]
        returned := .pushStatus
          { event := some (decodePayload s.config t p), consumed := 1, needMore := false, diag := none } }) ∧
    (∀ (len t : Byte) (p : List Byte), s.block.buf = s.config.syncByte :: len :: t :: p →
      len.toNat ≤ s.config.lenMax → p.length + 2 = len.toNat → crc8 ([t] ++ p) ≠ b →
      exec (.pushByte b) s = .next { s with
        block    := { s.block with buf := [], crcErrCnt := s.block.crcErrCnt + 1 }
        returned := .pushStatus { event := none, consumed := 1, needMore := false, diag := some .crcMismatch } })

/-- From every state, whatever the buffer holds, a PUSH_BYTE completes, consumes its byte, and leaves the buffer in one of
the three quiescent shapes; `need_more` says whether bytes are held; configuration, transmit sequence and the host's queue
are unchanged (10_state.md rules R28, R32; 40_resync.md rules R100, R102). -/
def Obligations.PushByteAlwaysCompletesQuiescent : Prop :=
  ∀ (s : State) (b : Byte), s.issued = s.config →
    ∃ (t : State) (st : PushStatus), exec (.pushByte b) s = .next t ∧ quiescent t.config t.block.buf = true ∧
      t.returned = .pushStatus st ∧ st.consumed = 1 ∧ (st.needMore = true ↔ t.block.buf ≠ []) ∧
      t.config = s.config ∧ t.issued = s.issued ∧ t.sent = s.sent ∧ t.host = s.host ∧ s.events <+: t.events

/-- The overflow guard: a push into a full buffer drops the oldest byte, counts it, and goes on as the push into what
remains; its diag is BUFFER_OVERFLOW unless the scan meets another condition (40_resync.md rules R100, R101;
92_eei_decisions.md D33). Only a state outside every legal configuration can show it (rule R108; log entry 7). -/
def Obligations.PushIntoFullBufferDropsTheOldest : Prop :=
  ∀ (s : State) (b : Byte), s.issued = s.config → s.block.buf.length = s.config.bufCap → 0 < s.config.bufCap →
    ∃ (t u : State) (st su : PushStatus), exec (.pushByte b) s = .next t ∧
      exec (.pushByte b) { s with
        block := { s.block with buf := s.block.buf.drop 1, overflowCnt := s.block.overflowCnt + 1 } } = .next u ∧
      t.block = u.block ∧ t.events = u.events ∧ t.returned = .pushStatus st ∧ u.returned = .pushStatus su ∧
      st.event = su.event ∧ st.needMore = su.needMore ∧
      st.diag = (if su.diag = none then some .bufferOverflow else su.diag)

/-- A quiescent buffer under a legal configuration holds at most LEN_MAX + 1 bytes, fewer than BUF_CAP, so the overflow
guard never fires (10_state.md rule R32; 40_resync.md rule R108). -/
def Obligations.QuiescentBufferIsNeverFull : Prop :=
  ∀ (c : Config) (buf : List Byte), c.legal = true → quiescent c buf = true →
    buf.length ≤ c.lenMax + 1 ∧ buf.length ≤ c.maxFrame - 1 ∧ buf.length < c.bufCap

/-- PUSH_CHUNK completes and is PUSH_BYTE of each byte in order: it leaves the state those transactions leave, and returns
their events and diags in order, all bytes consumed, and whether bytes are held (40_resync.md rule R109;
92_eei_decisions.md D2). -/
def Obligations.PushChunkIsEachByteInOrder : Prop :=
  ∀ (s : State) (bs : List Byte), s.issued = s.config →
    ∃ (t u : State) (st : ChunkStatus), exec (.pushChunk bs) s = .next t ∧ pushEach bs s = .next u ∧
      t = { u with returned := .chunkStatus st } ∧
      st.events = (pushStatuses bs s).filterMap (fun x => x.event) ∧
      st.diags = (pushStatuses bs s).filterMap (fun x => x.diag) ∧
      st.consumed = bs.length ∧ (st.needMore = true ↔ t.block.buf ≠ [])

/-- From a quiescent buffer under a legal configuration, the events a chunk returns are exactly the events it delivers to
the consumer, in order (40_resync.md rules R107 to R109; 20_memory.md rule R60). -/
def Obligations.ChunkReturnsTheEventsItDelivers : Prop :=
  ∀ (s : State) (bs : List Byte), s.issued = s.config → s.config.legal = true → quiescent s.config s.block.buf = true →
    ∃ (t : State) (st : ChunkStatus), exec (.pushChunk bs) s = .next t ∧ t.returned = .chunkStatus st ∧
      t.events = s.events ++ st.events ∧ quiescent t.config t.block.buf = true ∧
      t.block.overflowCnt = s.block.overflowCnt

/-- Partial-delivery invariance (40_resync.md rule R110): from any state, one chunk and the same bytes in two chunks leave
the same state and emit the same events in the same order. -/
def Obligations.PartialDeliveryInvariance : Prop :=
  ∀ (s : State) (a b : List Byte), s.issued = s.config →
    ∃ t u v : State, exec (.pushChunk (a ++ b)) s = .next t ∧ exec (.pushChunk a) s = .next u ∧
      exec (.pushChunk b) u = .next v ∧ { t with returned := v.returned } = v

/-- Resynchronization (40_resync.md rule R111): garbage, then two frames, from an empty buffer, deliver exactly the two
frames' records, in order, provided no candidate that starts inside the garbage reaches past its end and none inside it
passes its CRC by chance. -/
def Obligations.GarbageThenTwoFramesDeliversTheTwo : Prop :=
  ∀ (s : State) (g p1 p2 : List Byte) (t1 t2 : Byte), s.issued = s.config → s.config.legal = true → s.block.buf = [] →
    s.config.fits p1 = true → s.config.fits p2 = true →
    noCandidateReachesPast s.config g (s.config.frameBytes t1 p1) → noChanceFrame s.config g →
    ∃ t : State, exec (.pushChunk (g ++ s.config.frameBytes t1 p1 ++ s.config.frameBytes t2 p2)) s = .next t ∧
      t.block.buf = [] ∧
      t.events = s.events ++ [decodePayload s.config t1 p1, decodePayload s.config t2 p2]

/-- Running a valid frame row at a frame boundary is pushing the frame's bytes one transaction at a time: both leave the
very same state, return value included (40_resync.md rules R102 to R107; 44_frame_encoder.md rule R232). -/
def Obligations.FrameRowIsPushingItsBytes : Prop :=
  ∀ (s : State) (i : Instr) (f : List Byte), s.issued = s.config → s.config.legal = true → s.block.buf = [] →
    encode s.config i = some f → ∃ t : State, exec i s = .next t ∧ pushEach f s = .next t

/-- Draining a stretch of the received stream, a frame at a time where a whole valid frame stands at a frame boundary and
a byte at a time elsewhere, leaves the very state that pushing its bytes one by one leaves (20_memory.md rules R51, R57;
40_resync.md rule R110). That a whole valid frame is fetched and run as one instruction is the model's reading (log entry
11). -/
def Obligations.WireDrainsAsPushes : Prop :=
  ∀ (s : State) (bytes : List Byte) (rest : List Request), s.config.legal = true →
    s.host = { config := s.config, item := .wire bytes } :: rest →
    ∃ (k : Nat) (t : State), k ≤ bytes.length + 1 ∧ Sys2Proof.core.run k s = .next t ∧
      pushEach bytes { s with host := rest, issued := s.config } = .next t

/-! ### The CRC -/

/-- CRC8 completes on every byte sequence, writes nothing but its result, and its result is the byte-at-a-time form over
the table of 41_crc.md rule R133, whose entries are `T[i] = CRC8([i])`. The parameters other than the polynomial are
general knowledge (D6, G1). -/
def Obligations.Crc8IsTheTableForm : Prop :=
  (∀ (s : State) (x : List Byte), s.issued = s.config →
    exec (.crc8 x) s = .next { s with returned := .crc (crcByTable x) }) ∧
  ∀ i : Byte, crcTable[i.toNat]? = some (crc8 [i])

/-- The check value: CRC8 of the nine ASCII bytes "123456789" is 0xBC (41_crc.md rule R136; general knowledge G2). -/
def Obligations.Crc8CheckValue : Prop :=
  crc8 [0x31#8, 0x32#8, 0x33#8, 0x34#8, 0x35#8, 0x36#8, 0x37#8, 0x38#8, 0x39#8] = 0xBC#8

/-- The residue: appending its own CRC8 to any byte sequence gives a sequence whose CRC8 is 0x00 (41_crc.md rule R134). -/
def Obligations.CrcResidueIsZero : Prop :=
  ∀ s : List Byte, crc8 (s ++ [crc8 s]) = 0x00#8

/-- CRC_CHECK completes on every operand and writes nothing but its result, which is true exactly when the CRC8 of type,
payload and crc together is 0x00 (41_crc.md rules R132, R134). -/
def Obligations.CrcCheckIsTheResidueTest : Prop :=
  ∀ (s : State) (t c : Byte) (p : List Byte), s.issued = s.config →
    ∃ ok : Bool, exec (.crcCheck t p c) s = .next { s with returned := .crcOk ok } ∧
      (ok = true ↔ crc8 ([t] ++ p) = c) ∧ (ok = true ↔ crc8 ([t] ++ p ++ [c]) = 0x00#8)

/-- A computed frame always checks: CRC_CHECK of a type and payload with their own CRC8 completes and answers true
(41_crc.md rule R137). -/
def Obligations.ComputedFrameAlwaysChecks : Prop :=
  ∀ (s : State) (t : Byte) (p : List Byte), s.issued = s.config →
    ∃ (c : Byte) (u : State), exec (.crc8 ([t] ++ p)) s = .next u ∧ u.returned = .crc c ∧
      exec (.crcCheck t p c) s = .next { s with returned := .crcOk true }

/-- CRC8 is linear over GF(2) for sequences of equal length (41_crc.md rule R130). -/
def Obligations.CrcIsLinear : Prop :=
  ∀ a b : List Byte, a.length = b.length → crc8 (xorBytes a b) = crc8 a ^^^ crc8 b

/-- "Because x + 1 divides g(x), every error of odd bit weight is detected", single-bit errors included (41_crc.md rule
R135): valid checked bytes with an odd number of bits flipped are no longer valid. -/
def Obligations.OddWeightErrorsAreDetected : Prop :=
  ∀ w e : List Byte, e.length = w.length → crc8 w = 0x00#8 → weight e % 2 = 1 → crc8 (xorBytes w e) ≠ 0x00#8

/-- "Every error burst of 8 or fewer bits is detected" (41_crc.md rule R135): an error pattern m * 2^k, 0 < m < 256, read
big-endian, is never missed. -/
def Obligations.BurstErrorsAreDetected : Prop :=
  ∀ (w e : List Byte) (m k : Nat), e.length = w.length → crc8 w = 0x00#8 → 0 < m → m < 256 →
    beU e 0 e.length = m * 2 ^ k → crc8 (xorBytes w e) ≠ 0x00#8

/-- "A two-bit error is missed exactly when its two bits are a multiple of 93 bits apart" (41_crc.md rule R135). -/
def Obligations.TwoBitErrorsMissedExactlyAt93 : Prop :=
  ∀ (w e : List Byte) (i j : Nat), e.length = w.length → crc8 w = 0x00#8 → j < i →
    beU e 0 e.length = 2 ^ i + 2 ^ j → (crc8 (xorBytes w e) = 0x00#8 ↔ 93 ∣ i - j)

/-! ### Channels -/

/-- UNPACK completes on every 22-byte payload and writes nothing but its result; bit j of channel i is payload bit
11i + j (42_channels.md rules R151, R153). -/
def Obligations.UnpackPlacesEveryBit : Prop :=
  ∀ (s : State) (p : Vector Byte 22), s.issued = s.config →
    ∃ ch : Vector Int 16, exec (.unpack p) s = .next { s with returned := .channels ch } ∧
      ∀ (i j : Nat) (h : i < 16), 0 ≤ ch[i] ∧ ch[i] ≤ 2047 ∧
        (j < 11 → ch[i].toNat.testBit j = (p.toList.getD ((11 * i + j) / 8) 0).getLsbD ((11 * i + j) % 8))

/-- PACK completes on 16 values of 0 to 2047 with 22 bytes, payload bit n being bit n mod 11 of channel n div 11
(42_channels.md rules R152, R153); a value outside is refused, not masked (92_eei_decisions.md D26). -/
def Obligations.PackPlacesEveryBit : Prop :=
  ∀ (s : State) (ch : Vector Int 16), s.issued = s.config →
    ((∀ v ∈ ch, 0 ≤ v ∧ v ≤ 2047) →
      ∃ p : List Byte, exec (.pack ch) s = .next { s with returned := .payload p } ∧ p.length = 22 ∧
        ∀ n < 176, (p.getD (n / 8) 0).getLsbD (n % 8) = (ch.toList.getD (n / 11) 0).toNat.testBit (n % 11)) ∧
    (¬ (∀ v ∈ ch, 0 ≤ v ∧ v ≤ 2047) → exec (.pack ch) s = .refused .channelOutOfRange)

/-- Round trip (42_channels.md rule R154): unpacking the packing of 16 values of 0 to 2047 gives them back, and packing the
unpacking of any 22 bytes gives them back. -/
def Obligations.PackUnpackRoundTrip : Prop :=
  (∀ (s : State) (ch : Vector Int 16), s.issued = s.config → (∀ v ∈ ch, 0 ≤ v ∧ v ≤ 2047) →
    ∃ p : Vector Byte 22, exec (.pack ch) s = .next { s with returned := .payload p.toList } ∧
      exec (.unpack p) s = .next { s with returned := .channels ch }) ∧
  (∀ (s : State) (p : Vector Byte 22), s.issued = s.config →
    ∃ ch : Vector Int 16, exec (.unpack p) s = .next { s with returned := .channels ch } ∧
      exec (.pack ch) s = .next { s with returned := .payload p.toList })

/-! ### Encoding -/

/-- ENCODE of a link-statistics record of raw fields within their widths returns type 0x14 and the ten bytes of
43_payload_codec.md rule R175; any field outside its width is refused (rule R177). General knowledge: D9, G5. -/
def Obligations.EncodeLinkStats : Prop :=
  ∀ (s : State) (r1 r2 lq snr ant mode pw dr dl ds : Int), s.issued = s.config →
    ((0 ≤ r1 ∧ r1 ≤ 255 ∧ 0 ≤ r2 ∧ r2 ≤ 255 ∧ 0 ≤ lq ∧ lq ≤ 255 ∧ -128 ≤ snr ∧ snr ≤ 127 ∧ 0 ≤ ant ∧ ant ≤ 255 ∧
        0 ≤ mode ∧ mode ≤ 255 ∧ 0 ≤ pw ∧ pw ≤ 255 ∧ 0 ≤ dr ∧ dr ≤ 255 ∧ 0 ≤ dl ∧ dl ≤ 255 ∧ -128 ≤ ds ∧ ds ≤ 127) →
      exec (.encode (.linkStats ⟨.raw r1, .raw r2, .raw lq, .raw snr, .raw ant, .raw mode, .raw pw, .raw dr, .raw dl,
        .raw ds⟩)) s = .next { s with
          returned := .typeAndPayload 0x14#8 [BitVec.ofInt 8 r1, BitVec.ofInt 8 r2, BitVec.ofInt 8 lq, BitVec.ofInt 8 snr, BitVec.ofInt 8 ant,
            BitVec.ofInt 8 mode, BitVec.ofInt 8 pw, BitVec.ofInt 8 dr, BitVec.ofInt 8 dl, BitVec.ofInt 8 ds] }) ∧
    (¬ (0 ≤ r1 ∧ r1 ≤ 255 ∧ 0 ≤ r2 ∧ r2 ≤ 255 ∧ 0 ≤ lq ∧ lq ≤ 255 ∧ -128 ≤ snr ∧ snr ≤ 127 ∧ 0 ≤ ant ∧ ant ≤ 255 ∧
        0 ≤ mode ∧ mode ≤ 255 ∧ 0 ≤ pw ∧ pw ≤ 255 ∧ 0 ≤ dr ∧ dr ≤ 255 ∧ 0 ≤ dl ∧ dl ≤ 255 ∧ -128 ≤ ds ∧ ds ≤ 127) →
      exec (.encode (.linkStats ⟨.raw r1, .raw r2, .raw lq, .raw snr, .raw ant, .raw mode, .raw pw, .raw dr, .raw dl,
        .raw ds⟩)) s = .refused .fieldOutOfRange)

/-- ENCODE of a GPS record of raw fields within their widths returns type 0x02 and the 15 big-endian bytes of
43_payload_codec.md rule R180; any field outside its width is refused (rule R182). General knowledge: D9, G4, G8. -/
def Obligations.EncodeGps : Prop :=
  ∀ (s : State) (lat lon spd hdg alt sats : Int), s.issued = s.config →
    ((-2147483648 ≤ lat ∧ lat ≤ 2147483647 ∧ -2147483648 ≤ lon ∧ lon ≤ 2147483647 ∧ 0 ≤ spd ∧ spd ≤ 65535 ∧
        0 ≤ hdg ∧ hdg ≤ 65535 ∧ 0 ≤ alt ∧ alt ≤ 65535 ∧ 0 ≤ sats ∧ sats ≤ 255) →
      exec (.encode (.gps ⟨.raw lat, .raw lon, .raw spd, .raw hdg, .raw alt, .raw sats⟩)) s =
        .next { s with
          returned := .typeAndPayload 0x02#8 [BitVec.ofInt 8 (lat / 16777216), BitVec.ofInt 8 (lat / 65536), BitVec.ofInt 8 (lat / 256), BitVec.ofInt 8 lat,
            BitVec.ofInt 8 (lon / 16777216), BitVec.ofInt 8 (lon / 65536), BitVec.ofInt 8 (lon / 256), BitVec.ofInt 8 lon,
            BitVec.ofInt 8 (spd / 256), BitVec.ofInt 8 spd, BitVec.ofInt 8 (hdg / 256), BitVec.ofInt 8 hdg,
            BitVec.ofInt 8 (alt / 256), BitVec.ofInt 8 alt, BitVec.ofInt 8 sats] }) ∧
    (¬ (-2147483648 ≤ lat ∧ lat ≤ 2147483647 ∧ -2147483648 ≤ lon ∧ lon ≤ 2147483647 ∧ 0 ≤ spd ∧ spd ≤ 65535 ∧
        0 ≤ hdg ∧ hdg ≤ 65535 ∧ 0 ≤ alt ∧ alt ≤ 65535 ∧ 0 ≤ sats ∧ sats ≤ 255) →
      exec (.encode (.gps ⟨.raw lat, .raw lon, .raw spd, .raw hdg, .raw alt, .raw sats⟩)) s =
        .refused .fieldOutOfRange)

/-- ENCODE of a battery record of raw fields within their widths returns type 0x08 and the eight big-endian bytes of
43_payload_codec.md rule R185; any field outside its width is refused (rule R187). General knowledge: D9, G9. -/
def Obligations.EncodeBattery : Prop :=
  ∀ (s : State) (v a cap rem : Int), s.issued = s.config →
    ((0 ≤ v ∧ v ≤ 65535 ∧ 0 ≤ a ∧ a ≤ 65535 ∧ 0 ≤ cap ∧ cap ≤ 16777215 ∧ 0 ≤ rem ∧ rem ≤ 255) →
      exec (.encode (.battery ⟨.raw v, .raw a, .raw cap, .raw rem⟩)) s = .next { s with
        returned := .typeAndPayload 0x08#8 [BitVec.ofInt 8 (v / 256), BitVec.ofInt 8 v, BitVec.ofInt 8 (a / 256), BitVec.ofInt 8 a,
          BitVec.ofInt 8 (cap / 65536), BitVec.ofInt 8 (cap / 256), BitVec.ofInt 8 cap, BitVec.ofInt 8 rem] }) ∧
    (¬ (0 ≤ v ∧ v ≤ 65535 ∧ 0 ≤ a ∧ a ≤ 65535 ∧ 0 ≤ cap ∧ cap ≤ 16777215 ∧ 0 ≤ rem ∧ rem ≤ 255) →
      exec (.encode (.battery ⟨.raw v, .raw a, .raw cap, .raw rem⟩)) s = .refused .fieldOutOfRange)

/-- ENCODE of an attitude record of raw fields within their widths returns type 0x1E and the six big-endian bytes of
43_payload_codec.md rule R190; any field outside its width is refused (rule R192). General knowledge: D9, G10. -/
def Obligations.EncodeAttitude : Prop :=
  ∀ (s : State) (x y z : Int), s.issued = s.config →
    ((-32768 ≤ x ∧ x ≤ 32767 ∧ -32768 ≤ y ∧ y ≤ 32767 ∧ -32768 ≤ z ∧ z ≤ 32767) →
      exec (.encode (.attitude ⟨.raw x, .raw y, .raw z⟩)) s = .next { s with
        returned := .typeAndPayload 0x1E#8 [BitVec.ofInt 8 (x / 256), BitVec.ofInt 8 x, BitVec.ofInt 8 (y / 256), BitVec.ofInt 8 y,
          BitVec.ofInt 8 (z / 256), BitVec.ofInt 8 z] }) ∧
    (¬ (-32768 ≤ x ∧ x ≤ 32767 ∧ -32768 ≤ y ∧ y ≤ 32767 ∧ -32768 ≤ z ∧ z ≤ 32767) →
      exec (.encode (.attitude ⟨.raw x, .raw y, .raw z⟩)) s = .refused .fieldOutOfRange)

/-- ENCODE of a channel, flight-mode or Unknown record: its type code with the packed channels, the label and its
terminator, or the bytes unchanged; a channel outside 0 to 2047, a label with 0x00 or longer than LEN_MAX - 3, and bytes
longer than LEN_MAX - 2 are refused by name (42_channels.md rules R152, R156; 43_payload_codec.md rules R197, R201;
92_eei_decisions.md D11, D22, D26). -/
def Obligations.EncodeChannelsLabelAndUnknown : Prop :=
  (∀ (s : State) (ch : Vector Int 16), s.issued = s.config →
    ((∀ v ∈ ch, 0 ≤ v ∧ v ≤ 2047) →
      exec (.encode (.channels ch)) s = .next { s with returned := .typeAndPayload 0x16#8 (pack ch) }) ∧
    (¬ (∀ v ∈ ch, 0 ≤ v ∧ v ≤ 2047) → exec (.encode (.channels ch)) s = .refused .channelOutOfRange)) ∧
  (∀ (s : State) (label : List Byte), s.issued = s.config →
    ((0x00#8 ∉ label ∧ label.length + 3 ≤ s.config.lenMax) →
      exec (.encode (.flightMode label)) s = .next { s with returned := .typeAndPayload 0x21#8 (label ++ [0x00#8]) }) ∧
    (¬ (0x00#8 ∉ label ∧ label.length + 3 ≤ s.config.lenMax) →
      exec (.encode (.flightMode label)) s = .refused .labelInvalid)) ∧
  (∀ (s : State) (t : Byte) (bytes : List Byte), s.issued = s.config →
    (bytes.length + 2 ≤ s.config.lenMax →
      exec (.encode (.unknown t bytes)) s = .next { s with returned := .typeAndPayload t bytes }) ∧
    (¬ bytes.length + 2 ≤ s.config.lenMax → exec (.encode (.unknown t bytes)) s = .refused .payloadTooLong))

/-- Round trip (43_payload_codec.md rule R205): (a) encoding what a payload decodes to gives back its type and payload, for
every type and every payload that fits; (b) decoding that encoding gives back the record. -/
def Obligations.EncodeDecodeRoundTrip : Prop :=
  ∀ (s : State) (t : Byte) (p : List Byte), s.issued = s.config → s.config.fits p = true →
    ∃ r : Event, exec (.decode t p) s = .next { s with returned := .record r } ∧
      exec (.encode r.asRaw) s = .next { s with returned := .typeAndPayload t p } ∧
      ∀ (t' : Byte) (p' : List Byte), exec (.encode r.asRaw) s = .next { s with returned := .typeAndPayload t' p' } →
        exec (.decode t' p') s = .next { s with returned := .record r }

/-- The width, scale and offset of every numeric field, as the spec's numbers: a physical value is encodable exactly when it
is `raw x scale + offset` of a raw value within the field's width, that raw value is then the field, and it is that raw
value's physical value (43_payload_codec.md rules R206, R207). Link statistics: RSSI in dBm is -raw, link quality and SNR
are raw (rules R175, R178). GPS: degrees are raw x 10^-7, which is the source's own scale, km/h raw / 10, heading raw / 100,
metres raw - 1000, satellites raw (rules R180, R183). Battery: volts and amperes are raw / 10, mAh and percent raw (rules
R185, R188). Attitude: radians are raw / 10000 (rules R190, R193). Widths and the other scales are general knowledge (D9,
D13, D27). That the three enumeration fields have no physical value in either direction is the model's reading (log
entry 10). -/
def Obligations.PhysicalValueEncodableExactlyOnGrid : Prop :=
  LinkStats.fields.upRssi1.Scaled 0 255 (-1) 0 ∧
  LinkStats.fields.upRssi2.Scaled 0 255 (-1) 0 ∧
  LinkStats.fields.dnRssi.Scaled 0 255 (-1) 0 ∧
  LinkStats.fields.upLq.Scaled 0 255 1 0 ∧
  LinkStats.fields.dnLq.Scaled 0 255 1 0 ∧
  LinkStats.fields.upSnr.Scaled (-128) 127 1 0 ∧
  LinkStats.fields.dnSnr.Scaled (-128) 127 1 0 ∧
  LinkStats.fields.activeAnt.Unscaled 0 255 ∧
  LinkStats.fields.rfMode.Unscaled 0 255 ∧
  LinkStats.fields.upTxPower.Unscaled 0 255 ∧
  Gps.fields.lat.Scaled (-2147483648) 2147483647 (1 / 10000000) 0 ∧
  Gps.fields.lon.Scaled (-2147483648) 2147483647 (1 / 10000000) 0 ∧
  Gps.fields.gspeed.Scaled 0 65535 (1 / 10) 0 ∧
  Gps.fields.heading.Scaled 0 65535 (1 / 100) 0 ∧
  Gps.fields.alt.Scaled 0 65535 1 (-1000) ∧
  Gps.fields.sats.Scaled 0 255 1 0 ∧
  Battery.fields.voltage.Scaled 0 65535 (1 / 10) 0 ∧
  Battery.fields.current.Scaled 0 65535 (1 / 10) 0 ∧
  Battery.fields.capacity.Scaled 0 16777215 1 0 ∧
  Battery.fields.remaining.Scaled 0 255 1 0 ∧
  Attitude.fields.pitch.Scaled (-32768) 32767 (1 / 10000) 0 ∧
  Attitude.fields.roll.Scaled (-32768) 32767 (1 / 10000) 0 ∧
  Attitude.fields.yaw.Scaled (-32768) 32767 (1 / 10000) 0

/-- A record presented by its exact physical values encodes as its raw record does, for every record within its widths
(43_payload_codec.md rules R206, R207; 90_conflicts.md C2): "nothing rounds inside the block". -/
def Obligations.EncodingExactPhysicalValuesIsEncodingRaw : Prop :=
  ∀ (s : State) (r : Event), s.issued = s.config → Record.inWidths s.config.lenMax r = true →
    ∃ (t : Byte) (p : List Byte), exec (.encode r.present) s = .next { s with returned := .typeAndPayload t p } ∧
      exec (.encode r.asRaw) s = .next { s with returned := .typeAndPayload t p }

/-- A battery voltage given in volts is encoded exactly when it is a whole number of tenths within 16 bits, and is refused
as NOT_REPRESENTABLE otherwise (43_payload_codec.md rules R188, R207; 95_test_vectors.md section 2.4). ENCODE of any record
with a physical value that gives no raw field is refused as NOT_REPRESENTABLE, whatever its other fields hold, and no other
record is: a value off the grid of any scaled field, or a physical value for an enumeration field. That an enumeration
field refuses every physical value is the model's reading (log entry 10); that NOT_REPRESENTABLE is named when a raw field
is out of range too is the model's choice (log entry 8). -/
def Obligations.VoltageOffTheGridIsRefused : Prop :=
  (∀ (s : State) (v : Rat), s.issued = s.config →
    (∀ n : Int, 0 ≤ n → n ≤ 65535 → v = (n : Rat) / 10 →
      exec (.encode (.battery ⟨.physical v, .raw 0, .raw 0, .raw 0⟩)) s = .next { s with
        returned := .typeAndPayload 0x08#8 [BitVec.ofInt 8 (n / 256), BitVec.ofInt 8 n, 0#8, 0#8, 0#8, 0#8, 0#8, 0#8] }) ∧
    ((∀ n : Int, 0 ≤ n → n ≤ 65535 → v ≠ (n : Rat) / 10) →
      exec (.encode (.battery ⟨.physical v, .raw 0, .raw 0, .raw 0⟩)) s = .refused .notRepresentable)) ∧
  (∀ (s : State) (r : Operand), s.issued = s.config → r.toRaw = none →
    exec (.encode r) s = .refused .notRepresentable) ∧
  (∀ (s : State) (r : Operand), s.issued = s.config →
    (exec (.encode r) s = .refused .notRepresentable ↔
      ∃ (f : Field) (v : Rat), (f, Val.physical v) ∈ r.numericFields ∧ f.ofPhysical v = none))

/-- FRAME_ENCODE transmits and returns `[SYNC_BYTE, |p| + 2, t] ++ p ++ [CRC8([t] ++ p)]` and writes nothing else; a payload
longer than LEN_MAX - 2 is refused (44_frame_encoder.md rule R230; the refusal: 92_eei_decisions.md D18). -/
def Obligations.FrameEncodeBuildsTheFrame : Prop :=
  ∀ (s : State) (t : Byte) (p : List Byte), s.issued = s.config →
    (p.length + 2 ≤ s.config.lenMax →
      exec (.frameEncode t p) s = .next { s with
        sent     := s.sent ++ [[s.config.syncByte, BitVec.ofNat 8 (p.length + 2), t] ++ p ++ [crc8 ([t] ++ p)]]
        returned := .frame ([s.config.syncByte, BitVec.ofNat 8 (p.length + 2), t] ++ p ++ [crc8 ([t] ++ p)]) }) ∧
    (¬ p.length + 2 ≤ s.config.lenMax → exec (.frameEncode t p) s = .refused .payloadTooLong)

/-- ENCODE_RECORD is ENCODE and then FRAME_ENCODE: it does what FRAME_ENCODE does with the type and payload ENCODE returns,
and is refused as ENCODE is (44_frame_encoder.md rule R231). -/
def Obligations.EncodeRecordIsEncodeThenFrame : Prop :=
  ∀ (s : State) (r : Operand), s.issued = s.config →
    (∃ (t : Byte) (p : List Byte), exec (.encode r) s = .next { s with returned := .typeAndPayload t p } ∧
      exec (.encodeRecord r) s = exec (.frameEncode t p) s) ∨
    (∃ why : Refusal, exec (.encode r) s = .refused why ∧ exec (.encodeRecord r) s = .refused why)

/-- ENCODE_RECORD of an encodable record whose frame fits completes: it transmits one frame, returns it, and writes no
other state (44_frame_encoder.md rules R231, R233). -/
def Obligations.EncodeRecordCompletes : Prop :=
  ∀ (s : State) (r : Operand), s.issued = s.config → Instr.wellFormed s.config (.encodeRecord r) = true →
    ∃ (t : Byte) (p : List Byte), s.config.fits p = true ∧
      exec (.encode r) s = .next { s with returned := .typeAndPayload t p } ∧
      exec (.encodeRecord r) s = .next { s with
        sent     := s.sent ++ [s.config.frameBytes t p]
        returned := .frame (s.config.frameBytes t p) }

/-- Every self-generated frame is valid (44_frame_encoder.md rule R232): the frame FRAME_ENCODE transmits, pushed into a
block with that configuration and an empty buffer, delivers exactly one event, the decoding of its type and payload, leaves
the buffer empty and writes no counter. -/
def Obligations.SelfGeneratedFrameIsValid : Prop :=
  ∀ (s u : State) (t : Byte) (p : List Byte), s.issued = s.config → s.config.legal = true → s.config.fits p = true →
    u.config = s.config → u.issued = s.config → u.block.buf = [] →
    ∃ (f : List Byte) (s' u' : State) (e : Event), exec (.frameEncode t p) s = .next s' ∧ s'.sent = s.sent ++ [f] ∧
      exec (.decode t p) s = .next { s with returned := .record e } ∧
      exec (.pushChunk f) u = .next u' ∧ u'.block = u.block ∧ u'.events = u.events ++ [e]

/-- The encoder and the resynchronizer do not touch each other (44_frame_encoder.md rule R233): an encode request writes no
state of the block, an encode request before a push changes nothing the push does or returns, a push before an encode
request changes nothing it transmits or returns, and a repeated request transmits the same bytes again. -/
def Obligations.EncoderAndResynchronizerAreIndependent : Prop :=
  ∀ (s s' u : State) (i : Instr) (b : Byte), s.issued = s.config →
    (∃ (t : Byte) (p : List Byte), i = .frameEncode t p) ∨ (∃ r : Operand, i = .encodeRecord r) →
    exec i s = .next s' → exec (.pushByte b) s = .next u →
    (s'.block = s.block ∧ s'.config = s.config ∧ s'.events = s.events) ∧
    (∃ v, exec (.pushByte b) s' = .next v ∧ v.block = u.block ∧ v.events = u.events ∧ v.returned = u.returned) ∧
    (∃ v, exec i u = .next v ∧ v.sent = s'.sent ∧ v.returned = s'.returned) ∧
    (∃ v f, exec i s' = .next v ∧ s'.sent = s.sent ++ [f] ∧ v.sent = s'.sent ++ [f])

/-! ### Diagnostics, reset, configuration -/

/-- READ_DIAG completes and returns the three counters, writing nothing else; reading again returns the same values
(60_exceptions.md rule R262; 92_eei_decisions.md D15). -/
def Obligations.ReadDiagReturnsTheCounters : Prop :=
  ∀ s : State, s.issued = s.config →
    ∃ t : State, t = { s with returned := .counters ⟨s.block.malformedCnt, s.block.crcErrCnt, s.block.overflowCnt⟩ } ∧
      exec .readDiag s = .next t ∧ exec .readDiag t = .next t

/-- RESET of a legal configuration puts it in force, empties the buffer and clears the counters, whatever the block held,
leaving what was delivered; an illegal configuration is refused (70_reset_and_hazards.md rules R280, R282; 10_state.md rules
R25, R34). That the host then issues under it and that nothing is returned is the model's choice (log entries 2 and 3). -/
def Obligations.ResetInitialisesTheBlock : Prop :=
  ∀ (s : State) (cfg : Config),
    ((4 ≤ cfg.maxFrame ∧ cfg.maxFrame ≤ 255 ∧ cfg.maxFrame ≤ cfg.bufCap) →
      exec (.reset cfg) s = .next { s with
        block    := { buf := [], malformedCnt := 0, crcErrCnt := 0, overflowCnt := 0 }
        config   := cfg
        issued   := cfg
        returned := .nothing }) ∧
    (¬ (4 ≤ cfg.maxFrame ∧ cfg.maxFrame ≤ 255 ∧ cfg.maxFrame ≤ cfg.bufCap) →
      exec (.reset cfg) s = .refused .configIllegal)

/-- The state at power-on: an empty buffer, counters at 0, the default configuration (SYNC_BYTE 0xC8, MAX_FRAME 64, BUF_CAP
64, LEN_MAX 62, all six types decoded), which is what RESET with the defaults leaves (10_state.md rule R34;
70_reset_and_hazards.md rule R281; 00_scope.md rule R6; 92_eei_decisions.md D34). The rules give the egress sequences no
power-on value; that both start empty is the model's reading (DEDUCED, log entry 1). -/
def Obligations.PowerOnIsResetWithTheDefaults : Prop :=
  State.reset.block = { buf := [], malformedCnt := 0, crcErrCnt := 0, overflowCnt := 0 } ∧
  State.reset.config = ⟨0xC8#8, 64, 64, ⟨true, true, true, true, true, true⟩⟩ ∧
  State.reset.config.lenMax = 62 ∧ State.reset.events = [] ∧ State.reset.sent = [] ∧
  ∀ s : State, ∃ t, exec (.reset Config.default) s = .next t ∧ t.block = State.reset.block ∧ t.config = State.reset.config

/-- Every operation but RESET is refused when it is issued under a configuration other than the one of the last RESET
(70_reset_and_hazards.md rule R284; 60_exceptions.md rule R256; 92_eei_decisions.md D17). That CONFIG_CHANGED is the reason
named when an operand would be refused too is the model's choice (log entry 20). -/
def Obligations.ChangedConfigurationIsRefused : Prop :=
  ∀ (s : State) (i : Instr), (∀ cfg, i ≠ .reset cfg) → s.issued ≠ s.config → exec i s = .refused .configChanged

/-! ### The whole machine -/

/-- Every well-formed instruction completes in every state whose operation is issued under the configuration in force:
nothing is refused but the operands the spec gives no meaning (60_exceptions.md rules R250, R256: "No ingress byte is ever
refused"). -/
def Obligations.WellFormedInstructionsComplete : Prop :=
  ∀ (s : State) (i : Instr), s.issued = s.config → i.wellFormed s.config = true →
    ∃ t : State, exec i s = .next t ∧ t.host = s.host ∧ s.events <+: t.events ∧ s.sent <+: t.sent

/-- What each kind of instruction leaves unchanged (20_memory.md rule R59): the pure operations and READ_DIAG write nothing
but the return value; the encoder appends one frame to the transmit sequence; a frame row appends one event; a push may
change the block and the event sequence; RESET may change the block, the configuration in force, and the configuration the
host issues under (the model's choice, log entry 3). Each of these may change the return value too, and nothing else. -/
def Obligations.EachInstructionWritesOnlyItsOwn : Prop :=
  ∀ (s t : State) (i : Instr), exec i s = .next t →
    (match i with
     | .channels _ | .linkStats _ | .gps _ | .battery _ | .attitude _ | .flightMode _ | .unknown _ _ =>
       t = { s with events := t.events, returned := t.returned } ∧ ∃ e, t.events = s.events ++ [e]
     | .pushByte _ | .pushChunk _ => t = { s with block := t.block, events := t.events, returned := t.returned }
     | .crc8 _ | .crcCheck _ _ _ | .unpack _ | .pack _ | .decode _ _ | .encode _ | .readDiag =>
       t = { s with returned := t.returned }
     | .frameEncode _ _ | .encodeRecord _ =>
       t = { s with sent := t.sent, returned := t.returned } ∧ ∃ f, t.sent = s.sent ++ [f]
     | .reset _ => t = { s with block := t.block, config := t.config, issued := t.issued, returned := t.returned })

/-- The configuration in force changes at a step only when that step runs a RESET, to the configuration it names
(70_reset_and_hazards.md rule R282; 92_eei_decisions.md D17). -/
def Obligations.ConfigurationChangesOnlyAtReset : Prop :=
  ∀ s t : State, step s = .next t →
    t.config = s.config ∨
    ∃ (cfg' cfg : Config) (rest : List Request), s.host = { config := cfg', item := .op (.reset cfg) } :: rest ∧
      cfg.legal = true ∧ t.config = cfg

/-- The egress sequences are first in, first out: a step only appends to them, so nothing delivered is dropped, repeated,
reordered or recalled, a RESET included (20_memory.md rules R60, R61; 10_state.md rule R34). -/
def Obligations.EgressSequencesOnlyGrow : Prop :=
  ∀ s t : State, step s = .next t → s.events <+: t.events ∧ s.sent <+: t.sent

/-- The invariant holds at power-on. Its clauses about delivered events and transmitted frames hold there because both
egress sequences start empty, which is the model's reading (DEDUCED, log entry 1). -/
def Obligations.PowerOnMeetsTheInvariant : Prop := State.reset.Inv

/-- Every step keeps the invariant: a legal configuration, a quiescent buffer (10_state.md rule R32), no overflow counted
(rule R24; 40_resync.md rule R108), every delivered event within its exact widths (rule R33), every transmitted frame valid
(44_frame_encoder.md rule R232). -/
def Obligations.StepKeepsTheInvariant : Prop :=
  ∀ s t : State, s.Inv → step s = .next t → t.Inv
end

