-- ==== Sys2Proof/Laws/Channels.lean ====
section
/-! SUPPORT. Where the bits of packed channels stand (42_channels.md rules R151, R152). -/
namespace Sys2Proof.Machine

/-- Bit n of the little-endian integer is bit n mod 8 of byte n div 8. -/
theorem leBits_testBit (p : List Byte) (n : Nat) : (leBits p).testBit n = (p.getD (n / 8) 0).getLsbD (n % 8) := by
  induction p generalizing n with
  | nil => simp [leBits]
  | cons b p ih =>
    have e : b.toNat + 256 * leBits p = 2 ^ 8 * leBits p + b.toNat := by ring
    rw [leBits, e, Nat.testBit_two_pow_mul_add _ b.isLt]
    split
    · rename_i h
      have h0 : n / 8 = 0 := by omega
      simp [h0, Nat.mod_eq_of_lt h, BitVec.getLsbD]
    · rename_i h
      have h0 : n / 8 = (n - 8) / 8 + 1 := by omega
      have h1 : (n - 8) % 8 = n % 8 := by omega
      rw [ih, h0, h1, List.getD_cons_succ]

theorem unpack_getElem (p : List Byte) (i : Nat) (h : i < 16) :
    (unpack p)[i] = (((leBits p >>> (11 * i)) % 2 ^ 11 : Nat) : Int) := by
  simp [unpack]

/-- Bit n of the sum of channels in range is bit n mod 11 of channel n div 11. -/
theorem channelBits_testBit (l : List Int) (hl : ∀ v ∈ l, 0 ≤ v ∧ v ≤ 2047) (n : Nat) :
    (channelBits l).testBit n = (l.getD (n / 11) 0).toNat.testBit (n % 11) := by
  induction l generalizing n with
  | nil => simp [channelBits]
  | cons v l ih =>
    have hv := hl v (by simp)
    have e : v.toNat + 2 ^ 11 * channelBits l = 2 ^ 11 * channelBits l + v.toNat := by ring
    rw [channelBits, e, Nat.testBit_two_pow_mul_add _ (by omega : v.toNat < 2 ^ 11)]
    split
    · rename_i h
      have h0 : n / 11 = 0 := by omega
      simp [h0, Nat.mod_eq_of_lt h]
    · rename_i h
      have h0 : n / 11 = (n - 11) / 11 + 1 := by omega
      have h1 : (n - 11) % 11 = n % 11 := by omega
      rw [ih (fun w hw => hl w (by simp [hw])), h0, h1, List.getD_cons_succ]

@[simp] theorem pack_length (ch : Vector Int 16) : (pack ch).length = 22 := by simp [pack]

end Sys2Proof.Machine
end

