-- ==== Sys2Proof/Laws/Config.lean ====
section
/-! SUPPORT. The configuration's checks as propositions, and the bounds a legal configuration gives. -/
namespace Sys2Proof

theorem lengthOk_iff (c : Config) (n : Nat) : c.lengthOk n = true ↔ 2 ≤ n ∧ n ≤ c.lenMax := by
  simp [Config.lengthOk]

theorem fits_iff (c : Config) (p : List Byte) : c.fits p = true ↔ p.length + 2 ≤ c.lenMax := by
  simp [Config.fits]

theorem lenMax_le (c : Config) : c.lenMax ≤ 62 := Nat.min_le_left _ _

theorem legal_iff (c : Config) : c.legal = true ↔ 4 ≤ c.maxFrame ∧ c.maxFrame ≤ 255 ∧ c.maxFrame ≤ c.bufCap := by
  simp [Config.legal, and_assoc]

theorem lenMax_of_legal {c : Config} (h : c.legal = true) :
    2 ≤ c.lenMax ∧ c.lenMax + 2 ≤ c.maxFrame ∧ c.lenMax + 2 ≤ c.bufCap := by
  rw [legal_iff] at h
  unfold Config.lenMax
  omega

end Sys2Proof
end

