-- ==== Sys2Proof/Laws/Codec.lean ====
section
/-! SUPPORT. The byte-order primitives, the field checks and the payload encoder, each said once. -/
namespace Sys2Proof.Machine

/-! ### Reading fields -/

theorem beU_one (p : List Byte) (o : Nat) (h : o < p.length) : beU p o 1 = (p.getD o 0).toNat := by
  simp [beU, List.take_one, List.head?_drop, List.getD, h]

theorem beS_one (p : List Byte) (o : Nat) (h : o < p.length) : beS p o 1 = (p.getD o 0).toInt := by
  simp [beS, beU_one p o h, BitVec.toInt_eq_toNat_cond]
  have := (p[o]).isLt
  split <;> split <;> omega

theorem append_toNat {n m : Nat} (a : BitVec n) (b : BitVec m) : (a ++ b).toNat = a.toNat * 2 ^ m + b.toNat := by
  rw [BitVec.toNat_append, ← Nat.shiftLeft_add_eq_or_of_lt b.isLt, Nat.shiftLeft_eq]

/-- n bytes read as an unsigned integer stay below 2^(8n). -/
theorem beU_lt (p : List Byte) (o n : Nat) (h : o + n ≤ p.length) : beU p o n < 2 ^ (8 * n) := by
  have key : ∀ (l : List Byte) (v : Nat),
      l.foldl (fun v b => v * 256 + b.toNat) v < (v + 1) * 2 ^ (8 * l.length) := by
    intro l
    induction l with
    | nil => intro v; simp
    | cons b l ih =>
      intro v
      have hb := b.isLt
      simp only [List.foldl_cons, List.length_cons, Nat.mul_add, Nat.pow_add]
      calc _ < _ := ih (v * 256 + b.toNat)
        _ ≤ (v + 1) * 256 * 2 ^ (8 * l.length) := Nat.mul_le_mul_right _ (by omega)
        _ = _ := by ring
  simpa [beU, Nat.min_eq_left (show n ≤ p.length - o by omega)] using key ((p.drop o).take n) 0

/-- n bytes read as a signed integer stay within its width. -/
theorem beS_bounds (p : List Byte) (o n : Nat) (hn : 0 < n) (h : o + n ≤ p.length) :
    - 2 ^ (8 * n - 1) ≤ beS p o n ∧ beS p o n < 2 ^ (8 * n - 1) := by
  have hlt := beU_lt p o n h
  have e : (2 : Nat) ^ (8 * n) = 2 * 2 ^ (8 * n - 1) := by
    rw [← pow_succ']; congr 1; omega
  have e' : (2 : Int) ^ (8 * n) = 2 * 2 ^ (8 * n - 1) := by exact_mod_cast e
  have hc : ((2 ^ (8 * n - 1) : Nat) : Int) = 2 ^ (8 * n - 1) := by push_cast; rfl
  unfold beS
  rw [e] at hlt
  rw [e']
  generalize (2 : Int) ^ (8 * n - 1) = m at *
  generalize (2 : Nat) ^ (8 * n - 1) = m' at *
  split <;> omega

/-! ### Writing fields -/

theorem putBE_length (v : Int) (n : Nat) : (putBE v n).length = n := by
  have : ∀ (x n : Nat), (bytesBE x n).length = n := by intro x n; induction n <;> simp_all [bytesBE]
  exact this _ n

/-- A byte of the low part of an integer is the byte of the integer itself. -/
theorem ofNat_toNat_emod (v m : Int) (k : Nat) (hm : 0 < m) (hk : (256 * 2 ^ k : Int) ∣ m) :
    BitVec.ofNat 8 ((v % m).toNat >>> k) = BitVec.ofInt 8 (v / 2 ^ k) := by
  apply BitVec.eq_of_toNat_eq
  simp [BitVec.toNat_ofInt, Nat.shiftRight_eq_div_pow]
  obtain ⟨q, rfl⟩ := hk
  have h0 : 0 ≤ v % (256 * 2 ^ k * q) := Int.emod_nonneg _ (by omega)
  have key : ((v % (256 * 2 ^ k * q)) / 2 ^ k) % 256 = v / 2 ^ k % 256 := by
    have h2 : (0 : Int) < 2 ^ k := by positivity
    have e : v = v % (256 * 2 ^ k * q) + 2 ^ k * (256 * q * (v / (256 * 2 ^ k * q))) := by
      have := Int.emod_add_mul_ediv v (256 * 2 ^ k * q)
      linarith [this]
    conv_rhs => rw [e, Int.add_mul_ediv_left _ _ (by omega)]
    rw [show 256 * q * (v / (256 * 2 ^ k * q)) = 256 * (q * (v / (256 * 2 ^ k * q))) by ring,
      Int.add_mul_emod_self_left]
  have : (((v % (256 * 2 ^ k * q)).toNat / 2 ^ k % 256 : Nat) : Int) = v / 2 ^ k % 256 := by
    push_cast
    rw [Int.toNat_of_nonneg h0, key]
  omega

theorem putBE_one (v : Int) : putBE v 1 = [BitVec.ofInt 8 v] := by
  have a := ofNat_toNat_emod v (2 ^ 8) 0 (by norm_num) (by norm_num)
  norm_num at a
  simp [putBE, bytesBE, a]

theorem putBE_two (v : Int) : putBE v 2 = [BitVec.ofInt 8 (v / 256), BitVec.ofInt 8 v] := by
  have a := ofNat_toNat_emod v (2 ^ 16) 8 (by norm_num) (by norm_num)
  have b := ofNat_toNat_emod v (2 ^ 16) 0 (by norm_num) (by norm_num)
  norm_num at a b
  simp [putBE, bytesBE, a, b]

theorem putBE_three (v : Int) :
    putBE v 3 = [BitVec.ofInt 8 (v / 65536), BitVec.ofInt 8 (v / 256), BitVec.ofInt 8 v] := by
  have a := ofNat_toNat_emod v (2 ^ 24) 16 (by norm_num) (by norm_num)
  have b := ofNat_toNat_emod v (2 ^ 24) 8 (by norm_num) (by norm_num)
  have c := ofNat_toNat_emod v (2 ^ 24) 0 (by norm_num) (by norm_num)
  norm_num at a b c
  simp [putBE, bytesBE, a, b, c]

theorem putBE_four (v : Int) :
    putBE v 4 = [BitVec.ofInt 8 (v / 16777216), BitVec.ofInt 8 (v / 65536), BitVec.ofInt 8 (v / 256),
      BitVec.ofInt 8 v] := by
  have a := ofNat_toNat_emod v (2 ^ 32) 24 (by norm_num) (by norm_num)
  have b := ofNat_toNat_emod v (2 ^ 32) 16 (by norm_num) (by norm_num)
  have c := ofNat_toNat_emod v (2 ^ 32) 8 (by norm_num) (by norm_num)
  have d := ofNat_toNat_emod v (2 ^ 32) 0 (by norm_num) (by norm_num)
  norm_num at a b c d
  simp [putBE, bytesBE, a, b, c, d]

/-! ### Field checks -/

theorem holds_iff (f : Field) (n : Int) : f.holds n = true ↔ f.width.lo ≤ n ∧ n ≤ f.width.hi := by
  simp [Field.holds]

theorem channelsOk_iff (ch : Vector Int 16) : channelsOk ch = true ↔ ∀ v ∈ ch, 0 ≤ v ∧ v ≤ 2047 := by
  simp only [channelsOk, List.all_eq_true, Vector.mem_toList_iff, Bool.and_eq_true, decide_eq_true_eq]

theorem labelOk_iff (n : Nat) (l : List Byte) : labelOk n l = true ↔ 0x00#8 ∉ l ∧ l.length + 3 ≤ n := by
  simp [labelOk]
  intro _
  constructor
  · intro h hm; exact h _ hm rfl
  · rintro h x hx rfl; exact h hx

/-- The canonical flight-mode payloads (43_payload_codec.md rule R195). -/
theorem fmCanon_iff (p : List Byte) :
    fmCanon p = true ↔ ∃ label, p = label ++ [0x00#8] ∧ ∀ b ∈ label, b ≠ 0x00#8 := by
  constructor
  · intro h
    simp [fmCanon] at h
    obtain ⟨l, rfl⟩ := List.getLast?_eq_some_iff.mp h.1.2
    exact ⟨l, rfl, by simpa using h.2⟩
  · rintro ⟨l, rfl, h⟩
    simpa [fmCanon] using h

/-- A longer limit admits more records. -/
theorem inWidths_mono {m n : Nat} (h : m ≤ n) {e : Event} (he : Record.inWidths m e = true) :
    Record.inWidths n e = true := by
  cases e <;> simp only [Record.inWidths, labelOk_iff, decide_eq_true_eq] at * <;>
    first | exact he | exact ⟨he.1, by omega⟩ | omega

/-! ### Operands and the encoder -/

@[simp] theorem asRaw_toRaw (e : Event) : e.asRaw.toRaw = some e := by cases e <;> rfl

/-- The encoder answers for every record within its widths. -/
theorem encodeRaw_ok {c : Config} {e : Event} (h : Record.inWidths c.lenMax e = true) :
    ∃ t p, encodeRaw c e = .ok (t, p) := by
  cases e <;> simp [Record.inWidths] at h <;>
    simp [encodeRaw, encChannels, encLink, encGps, encBatt, encAtt, encFm, encUnk, orRefuse, h, Except.map, Config.fits]

end Sys2Proof.Machine
end

