-- ==== Sys2Proof/Laws/Crc.lean ====
section
/-! SUPPORT. One bit and one byte of the CRC's division are linear (41_crc.md rule R130). -/
namespace Sys2Proof.Machine

theorem crcBit_xor (a b : Byte) : crcBit (a ^^^ b) = crcBit a ^^^ crcBit b := by
  unfold crcBit
  rw [BitVec.msb_xor, BitVec.shiftLeft_xor_distrib]
  generalize a <<< 1 = x
  generalize b <<< 1 = y
  by_cases ha : a.msb <;> by_cases hb : b.msb <;>
    simp only [ha, hb, Bool.xor_true, Bool.xor_false, Bool.not_true, Bool.not_false, if_true, if_false,
      Bool.false_eq_true]
  · rw [show x ^^^ 213#8 ^^^ (y ^^^ 213#8) = x ^^^ y ^^^ (213#8 ^^^ 213#8) by ac_rfl]
    simp
  all_goals ac_rfl

theorem crcByte_xor (a b x y : Byte) : crcByte (a ^^^ b) (x ^^^ y) = crcByte a x ^^^ crcByte b y := by
  unfold crcByte
  rw [show a ^^^ b ^^^ (x ^^^ y) = (a ^^^ x) ^^^ (b ^^^ y) by ac_rfl]
  simp only [crcBit_xor]

@[simp] theorem crcByte_self (a : Byte) : crcByte a a = 0x00#8 := by
  simp [crcByte]
  decide

end Sys2Proof.Machine
end

