-- ==== Sys2Proof/Laws/Exec.lean ====
section
/-! SUPPORT. The shared bodies of the meanings and the fetch, each said once. -/
namespace Sys2Proof

open Sys2Proof.Machine

/-! ### The dispatch map -/

theorem rowOf_none_iff (c : Config) (t : Byte) (p : List Byte) :
    c.rowOf t p = none ↔ ∀ k, c.rowTakes t p k = false := by
  simp only [Config.rowOf, List.find?_eq_none, List.mem_cons, List.not_mem_nil, or_false]
  constructor
  · intro h k
    have := h k (by cases k <;> simp)
    simpa using this
  · intro h k _
    simp [h k]

theorem rowOf_of_takes {c : Config} {t : Byte} {p : List Byte} {k : KnownType} (h : c.rowTakes t p k = true) :
    c.rowOf t p = some k := by
  have ht : t = k.code := by simp [Config.rowTakes] at h; exact h.1.1
  subst ht
  cases k <;> simp [Config.rowOf, List.find?, Config.rowTakes, KnownType.code] <;>
    simp_all [Config.rowTakes, KnownType.code]

@[simp] theorem typeAndPayload_frameRow (c : Config) (t : Byte) (p : List Byte) :
    (c.frameRow t p).typeAndPayload = some (t, p) := by
  unfold Config.frameRow
  split <;> simp [Instr.typeAndPayload] <;> rename_i h <;> have := List.find?_some h <;>
    simp [Config.rowTakes, KnownType.code] at this <;> exact this.1.1.symm

@[simp] theorem isFrame_frameRow (c : Config) (t : Byte) (p : List Byte) : (c.frameRow t p).isFrame = true := by
  unfold Config.frameRow
  split <;> rfl

theorem isFrame_iff (i : Instr) : i.isFrame = true ↔ ∃ t p, i.typeAndPayload = some (t, p) := by
  cases i <;> simp [Instr.isFrame, Instr.typeAndPayload]

/-- The encoder's answers: the frame of a frame row whose payload fits. -/
theorem encode_some {c : Config} {i : Instr} {f : List Byte} (h : encode c i = some f) :
    ∃ t p, i.typeAndPayload = some (t, p) ∧ c.fits p = true ∧ f = c.frameBytes t p := by
  unfold encode at h
  split at h
  · rename_i t p ht
    split at h
    · rename_i hf
      exact ⟨t, p, ht, hf, by simpa using h.symm⟩
    · simp at h
  · simp at h

namespace Machine

/-! ### The shared bodies -/

theorem deliver_eq (e : Event) (s : State) : deliver e s = .next (s.delivered e) := by
  simp [deliver, State.emit, State.answer, State.delivered, pushStatus, Block.needMore, List.length_pos_iff]

/-- A frame row delivers what DECODE gives for its type and payload. -/
theorem exec_frameRow (s : State) (i : Instr) (t : Byte) (p : List Byte) (hi : s.issued = s.config)
    (ht : i.typeAndPayload = some (t, p)) : exec i s = .next (s.delivered (decodePayload s.config t p)) := by
  cases i <;> simp [Instr.typeAndPayload] at ht <;> obtain ⟨rfl, rfl⟩ := ht
  case unknown t p =>
    simp only [exec, execUnknown, underConfig, hi, if_true]
    split
    · rename_i h
      rw [rowOf_none_iff] at h
      have h1 := h .channels
      have h2 := h .linkStats
      have h3 := h .gps
      have h4 := h .battery
      have h5 := h .attitude
      have h6 := h .flightMode
      simp only [Config.rowTakes, KnownType.code, KnownType.formOk] at h1 h2 h3 h4 h5 h6
      simp [decodePayload, deliver_eq, h1, h2, h3, h4, h5, h6]
    · simp [deliver_eq]
  all_goals
    simp [exec, execChannels, execLinkStats, execGps, execBattery, execAttitude, execFlightMode, underConfig, hi,
      KnownType.formOk, deliver_eq, decodePayload]
    split <;> rfl

/-- A sent frame is transmitted and returned, and its payload fits; a payload that does not fit is refused. -/
theorem sendFrame_eq (t : Byte) (p : List Byte) (s : State) :
    sendFrame t p s = if s.config.fits p then .next { s with
        sent     := s.sent ++ [s.config.frameBytes t p]
        returned := .frame (s.config.frameBytes t p) }
      else .refused .payloadTooLong := by
  unfold sendFrame
  split <;> simp [State.transmit, State.answer]

theorem exec_encode (s : State) (r : Operand) (hi : s.issued = s.config) :
    exec (.encode r) s = match encodePayload s.config r with
      | .ok (t, p) => .next { s with returned := .typeAndPayload t p }
      | .error why => .refused why := by
  rw [show exec (.encode r) s = execEncode r s from rfl, execEncode, underConfig, if_pos hi] <;>
    rcases encodePayload s.config r with why | ⟨t, p⟩ <;> rfl

theorem exec_encodeRecord (s : State) (r : Operand) (hi : s.issued = s.config) :
    exec (.encodeRecord r) s = match encodePayload s.config r with
      | .ok (t, p) => sendFrame t p s
      | .error why => .refused why := by
  rw [show exec (.encodeRecord r) s = execEncodeRecord r s from rfl, execEncodeRecord, underConfig, if_pos hi] <;>
    rcases encodePayload s.config r with why | ⟨t, p⟩ <;> rfl

/-! ### The fetch -/

/-- What the fetch can run, and that it touches the queue and the issuing configuration only. -/
theorem fetch_run {s u : State} {i : Instr} (hf : fetch s = .run i u) :
    u.block = s.block ∧ u.config = s.config ∧ u.events = s.events ∧ u.sent = s.sent ∧ u.returned = s.returned ∧
    ((∃ h : HostOp, i = h.instr ∧ ∃ cfg rest, s.host = ⟨cfg, .op h⟩ :: rest) ∨ (∃ b, i = .pushByte b) ∨
      (s.block.buf = [] ∧ ∃ bytes r, decode s.config bytes = .ok (i, r))) := by
  unfold fetch at hf
  split at hf
  · simp at hf
  · rename_i r rest hh
    split at hf
    · rename_i h hi
      simp at hf
      obtain ⟨rfl, rfl⟩ := hf
      exact ⟨rfl, rfl, rfl, rfl, rfl, .inl ⟨h, rfl, r.config, rest, by rw [hh, ← hi]⟩⟩
    · simp at hf
    · rename_i b bs hi
      split at hf
      · rename_i hff
        simp at hf
        obtain ⟨rfl, rfl⟩ := hf
        refine ⟨rfl, rfl, rfl, rfl, rfl, .inr (.inr ?_)⟩
        unfold fetchFrame at hff
        split at hff
        · rename_i hb
          split at hff
          · rename_i hd
            simp at hff
            subst hff
            exact ⟨hb, _, _, hd⟩
          · simp at hff
        · simp at hff
      · simp at hf
        obtain ⟨rfl, rfl⟩ := hf
        exact ⟨rfl, rfl, rfl, rfl, rfl, .inr (.inl ⟨b, rfl⟩)⟩

/-- An empty stretch of stream only leaves the queue. -/
theorem fetch_nothing {s u : State} (hf : fetch s = .nothingToPush u) :
    u.block = s.block ∧ u.config = s.config ∧ u.events = s.events ∧ u.sent = s.sent ∧ u.returned = s.returned := by
  unfold fetch at hf
  split at hf
  · simp at hf
  · split at hf
    · simp at hf
    · simp at hf; subst hf; exact ⟨rfl, rfl, rfl, rfl, rfl⟩
    · split at hf <;> simp at hf

end Machine

end Sys2Proof
end

