-- ==== Sys2Proof/Laws/Resync.lean ====
section
/-! SUPPORT. The scan pass by pass, its quiescence, and the whole of PUSH_BYTE on the block from each quiescent shape
(40_resync.md rules R102 to R108). -/
namespace Sys2Proof.Machine

theorem hunt_buf (x : Scan) : (hunt x).block.buf = x.block.buf.drop 1 := rfl
theorem malformed_buf (x : Scan) : (malformed x).block.buf = x.block.buf.drop 1 := rfl
theorem complete_buf (c : Config) (len : Nat) (x : Scan) : (complete c len x).block.buf = x.block.buf.drop (len + 2) := by
  unfold complete
  dsimp only
  split <;> rfl

/-- What the overflow guard does when the buffer is not full. -/
theorem guardOverflow_of_ne {c : Config} {k : Block} (h : k.buf.length ≠ c.bufCap) :
    guardOverflow c k = { block := k, emitted := [], diag := none } := by
  simp [guardOverflow, h]

theorem push_of_ne {c : Config} {k : Block} (b : Byte) (h : k.buf.length ≠ c.bufCap) :
    push c b k = scan c (k.buf.length + 1) ⟨{ k with buf := k.buf ++ [b] }, [], none⟩ := by
  simp [push, guardOverflow_of_ne h, appendByte]

/-- One pass of the scan on an empty buffer. -/
@[simp] theorem scan_nil (c : Config) (n : Nat) (x : Scan) (h : x.block.buf = []) : scan c n x = x := by
  cases n <;> simp [scan, h]

theorem scan_hunt {c : Config} {n : Nat} {x : Scan} {b : Byte} {rest : List Byte} (h : x.block.buf = b :: rest)
    (hb : b ≠ c.syncByte) : scan c (n + 1) x = scan c n (hunt x) := by
  simp [scan, h, hb]

theorem scan_waitLength {c : Config} {n : Nat} {x : Scan} (h : x.block.buf = [c.syncByte]) : scan c n x = x := by
  cases n <;> simp [scan, h]

theorem scan_malformed {c : Config} {n : Nat} {x : Scan} {len : Byte} {body : List Byte}
    (h : x.block.buf = c.syncByte :: len :: body) (hl : ¬ (2 ≤ len.toNat ∧ len.toNat ≤ c.lenMax)) :
    scan c (n + 1) x = scan c n (malformed x) := by
  have : c.lengthOk len.toNat = false := by rw [← lengthOk_iff] at hl; simpa using hl
  simp [scan, h, this]

theorem scan_waitFrame {c : Config} {n : Nat} {x : Scan} {len : Byte} {body : List Byte}
    (h : x.block.buf = c.syncByte :: len :: body) (h2 : 2 ≤ len.toNat) (hl : len.toNat ≤ c.lenMax)
    (hb : body.length < len.toNat) : scan c n x = x := by
  have : c.lengthOk len.toNat = true := (lengthOk_iff _ _).mpr ⟨h2, hl⟩
  cases n <;> simp [scan, h, this, hb]

theorem scan_complete {c : Config} {n : Nat} {x : Scan} {len : Byte} {body : List Byte}
    (h : x.block.buf = c.syncByte :: len :: body) (h2 : 2 ≤ len.toNat) (hl : len.toNat ≤ c.lenMax)
    (hb : len.toNat ≤ body.length) : scan c (n + 1) x = scan c n (complete c len.toNat x) := by
  have : c.lengthOk len.toNat = true := (lengthOk_iff _ _).mpr ⟨h2, hl⟩
  simp [scan, h, this, Nat.not_lt.mpr hb]

/-- Whatever the buffer holds, the scan ends with it quiescent (40_resync.md rule R102; 10_state.md rule R32). -/
theorem scan_quiescent (c : Config) (n : Nat) (x : Scan) (h : x.block.buf.length ≤ n) :
    quiescent c (scan c n x).block.buf = true := by
  induction n generalizing x with
  | zero =>
    have : x.block.buf = [] := List.length_eq_zero_iff.mp (Nat.le_zero.mp h)
    simp [scan, this, quiescent]
  | succ n ih =>
    rcases hb : x.block.buf with _ | ⟨b, rest⟩
    · simp [hb, quiescent]
    · simp only [hb, List.length_cons] at h
      by_cases hs : b = c.syncByte
      · subst hs
        rcases rest with _ | ⟨len, body⟩
        · rw [scan_waitLength hb]; simp [hb, quiescent]
        · simp only [List.length_cons] at h
          by_cases hl : 2 ≤ len.toNat ∧ len.toNat ≤ c.lenMax
          · by_cases hw : body.length < len.toNat
            · rw [scan_waitFrame hb hl.1 hl.2 hw]
              simp [hb, quiescent, inFrame, (lengthOk_iff _ _).mpr hl, hw]
            · rw [scan_complete hb hl.1 hl.2 (Nat.not_lt.mp hw)]
              apply ih
              simp [complete_buf, hb]
              omega
          · rw [scan_malformed hb hl]
            apply ih
            simp [malformed_buf, hb]
            omega
      · rw [scan_hunt hb hs]
        apply ih
        simp [hunt_buf, hb]
        omega

/-- PUSH_BYTE on the block, from Q0 (40_resync.md rules R103, R104, R108). -/
theorem push_idle {c : Config} {k : Block} (b : Byte) (hc : c.legal = true) (hk : k.buf = []) :
    push c b k = ⟨{ k with buf := if b = c.syncByte then [b] else [] }, [], none⟩ := by
  have := lenMax_of_legal hc
  rw [push_of_ne b (by simp [hk]; omega)]
  by_cases hb : b = c.syncByte
  · rw [scan_waitLength (by simp [hk, hb])]; simp [hk, hb]
  · rw [scan_hunt (by simp [hk]; rfl) hb, scan_nil _ _ _ (by simp [hunt_buf, hk])]
    simp [hunt, hk, hb]

/-- PUSH_BYTE on the block, from Q1 with a byte that is no length in range (rules R105, R108). -/
theorem push_malformed {c : Config} {k : Block} (b : Byte) (hc : c.legal = true) (hk : k.buf = [c.syncByte])
    (hb : ¬ (2 ≤ b.toNat ∧ b.toNat ≤ c.lenMax)) :
    push c b k = ⟨{ k with buf := if b = c.syncByte then [b] else [], malformedCnt := k.malformedCnt + 1 }, [],
      some .malformedLength⟩ := by
  have := lenMax_of_legal hc
  rw [push_of_ne b (by simp [hk]; omega), scan_malformed (len := b) (body := []) (by simp [hk]) hb]
  by_cases hs : b = c.syncByte
  · rw [scan_waitLength (by simp [malformed_buf, hk, hs])]; simp [malformed, count, hk, hs]
  · simp only [hk, List.length_singleton]
    rw [scan_hunt (b := b) (rest := []) (by simp [malformed_buf]) hs, scan_nil _ _ _ (by simp [hunt_buf, malformed_buf])]
    simp [hunt, malformed, count, hs]

/-- PUSH_BYTE on the block, from Q1 with a length in range (rules R106, R108). -/
theorem push_length {c : Config} {k : Block} (b : Byte) (hc : c.legal = true) (hk : k.buf = [c.syncByte])
    (h2 : 2 ≤ b.toNat) (hl : b.toNat ≤ c.lenMax) :
    push c b k = ⟨{ k with buf := [c.syncByte, b] }, [], none⟩ := by
  have := lenMax_of_legal hc
  rw [push_of_ne b (by simp [hk]; omega), scan_waitFrame (len := b) (body := []) (by simp [hk]) h2 hl (by simp; omega)]
  simp [hk]

/-- PUSH_BYTE on the block, inside a frame that the byte does not complete (rules R106, R108, R112). -/
theorem push_content {c : Config} {k : Block} {len : Byte} {body : List Byte} (b : Byte) (hc : c.legal = true)
    (hk : k.buf = c.syncByte :: len :: body) (hl : len.toNat ≤ c.lenMax) (hb : body.length + 1 < len.toNat) :
    push c b k = ⟨{ k with buf := c.syncByte :: len :: (body ++ [b]) }, [], none⟩ := by
  have := lenMax_of_legal hc
  rw [push_of_ne b (by simp [hk]; omega),
    scan_waitFrame (len := len) (body := body ++ [b]) (by simp [hk]) (by omega) hl (by simpa using hb)]
  simp [hk]

/-- PUSH_BYTE on the block, with the byte that completes a candidate frame (rules R107, R108). -/
theorem push_last {c : Config} {k : Block} {len t : Byte} {p : List Byte} (b : Byte) (hc : c.legal = true)
    (hk : k.buf = c.syncByte :: len :: t :: p) (hl : len.toNat ≤ c.lenMax) (hp : p.length + 2 = len.toNat) :
    push c b k = if crcCheck t p b then ⟨{ k with buf := [] }, [decodePayload c t p], none⟩
      else ⟨{ k with buf := [], crcErrCnt := k.crcErrCnt + 1 }, [], some .crcMismatch⟩ := by
  have := lenMax_of_legal hc
  rw [push_of_ne b (by simp [hk]; omega),
    scan_complete (len := len) (body := t :: p ++ [b]) (by simp [hk]) (by omega) hl (by simp; omega),
    scan_nil _ _ _ (by simp [complete_buf, hk, ← hp])]
  simp only [complete, hk, ← hp]
  simp [count, List.getD]

/-- What the scan emits and its diag do not depend on what was emitted and met before it. -/
theorem scan_acc (c : Config) (n : Nat) (k : Block) (es : List Event) (d : Option Diag) :
    scan c n ⟨k, es, d⟩ = ⟨(scan c n ⟨k, [], none⟩).block, es ++ (scan c n ⟨k, [], none⟩).emitted,
      (scan c n ⟨k, [], none⟩).diag.or d⟩ := by
  induction n generalizing k es d with
  | zero => simp [scan]
  | succ n ih =>
    rcases hb : k.buf with _ | ⟨b, rest⟩
    · rw [scan_nil c _ ⟨k, es, d⟩ hb, scan_nil c _ ⟨k, [], none⟩ hb]; simp
    · by_cases hs : b = c.syncByte
      · subst hs
        rcases rest with _ | ⟨len, body⟩
        · rw [scan_waitLength (x := ⟨k, es, d⟩) hb, scan_waitLength (x := ⟨k, [], none⟩) hb]; simp
        · by_cases hl : 2 ≤ len.toNat ∧ len.toNat ≤ c.lenMax
          · by_cases hw : body.length < len.toNat
            · rw [scan_waitFrame (x := ⟨k, es, d⟩) hb hl.1 hl.2 hw,
                scan_waitFrame (x := ⟨k, [], none⟩) hb hl.1 hl.2 hw]
              simp
            · have hw := Nat.not_lt.mp hw
              rw [scan_complete (x := ⟨k, es, d⟩) hb hl.1 hl.2 hw,
                scan_complete (x := ⟨k, [], none⟩) hb hl.1 hl.2 hw]
              unfold complete
              dsimp only
              split
              · rw [ih, ih _ ([] ++ _)]; simp
              · rw [ih, ih _ _ (some _)]; simp
          · rw [scan_malformed (x := ⟨k, es, d⟩) hb hl, scan_malformed (x := ⟨k, [], none⟩) hb hl]
            simp only [malformed]
            rw [ih, ih _ _ (some _)]; simp
      · rw [scan_hunt (x := ⟨k, es, d⟩) hb hs, scan_hunt (x := ⟨k, [], none⟩) hb hs]
        simp only [hunt]
        rw [ih]

/-- PUSH_BYTE on a full block is the push into the block without its oldest byte, the overflow counted (40_resync.md rule
R101). -/
theorem push_full {c : Config} {k : Block} (b : Byte) (hk : k.buf.length = c.bufCap) (hc : 0 < c.bufCap) :
    push c b k =
      ⟨(push c b { k with buf := k.buf.drop 1, overflowCnt := k.overflowCnt + 1 }).block,
        (push c b { k with buf := k.buf.drop 1, overflowCnt := k.overflowCnt + 1 }).emitted,
        (push c b { k with buf := k.buf.drop 1, overflowCnt := k.overflowCnt + 1 }).diag.or (some .bufferOverflow)⟩ := by
  have h1 : (k.buf.drop 1).length ≠ c.bufCap := by simp; omega
  rw [push_of_ne (k := { k with buf := k.buf.drop 1, overflowCnt := k.overflowCnt + 1 }) b h1]
  have e1 : push c b k = scan c ((k.buf.drop 1).length + 1)
      ⟨{ k with buf := k.buf.drop 1 ++ [b], overflowCnt := k.overflowCnt + 1 }, [], some .bufferOverflow⟩ := by
    simp [push, guardOverflow, hk, appendByte, count]
  rw [e1, scan_acc]
  simp

/-- PUSH_BYTE leaves the buffer quiescent, whatever it held (10_state.md rule R32). -/
theorem push_quiescent (c : Config) (b : Byte) (k : Block) : quiescent c (push c b k).block.buf = true :=
  scan_quiescent c _ _ (Nat.le_refl _)

/-- The three quiescent shapes (10_state.md rule R32). -/
theorem quiescent_cases {c : Config} {buf : List Byte} (h : quiescent c buf = true) :
    buf = [] ∨ buf = [c.syncByte] ∨ ∃ len body, buf = c.syncByte :: len :: body ∧ 2 ≤ len.toNat ∧
      len.toNat ≤ c.lenMax ∧ body.length < len.toNat := by
  unfold quiescent at h
  simp only [Bool.or_eq_true, beq_iff_eq] at h
  rcases h with (h | h) | h
  · exact .inl h
  · exact .inr (.inl h)
  · right; right
    unfold inFrame at h
    split at h
    · simp [lengthOk_iff] at h
      exact ⟨_, _, by rw [h.1.1], h.1.2.1, h.1.2.2, h.2⟩
    · simp at h

/-- From a quiescent buffer a push counts no overflow and emits at most one event, which its status reports (40_resync.md
rule R108). -/
theorem push_from_quiescent {c : Config} {k : Block} (b : Byte) (hc : c.legal = true) (hq : quiescent c k.buf = true) :
    (push c b k).block.overflowCnt = k.overflowCnt ∧ (push c b k).emitted = (push c b k).event.toList := by
  rcases quiescent_cases hq with h | h | ⟨len, body, h, h2, hl, hb⟩
  · rw [push_idle b hc h]; simp [Scan.event]
  · by_cases h2 : 2 ≤ b.toNat ∧ b.toNat ≤ c.lenMax
    · rw [push_length b hc h h2.1 h2.2]; simp [Scan.event]
    · rw [push_malformed b hc h h2]; simp [Scan.event]
  · by_cases hw : body.length + 1 < len.toNat
    · rw [push_content b hc h hl hw]; simp [Scan.event]
    · rcases body with _ | ⟨t, p⟩
      · simp at hw; omega
      · simp at hb hw
        rw [push_last b hc h hl (by omega)]
        split <;> simp [Scan.event]

end Sys2Proof.Machine
end

