-- ==== Sys2Proof/Laws/Pushes.lean ====
section
/-! SUPPORT. Pushing several bytes: a chunk cut in two, frame content, a whole candidate, a whole frame, and the two ways
to push bytes through `exec` (40_resync.md rules R106, R107, R109, R110; 44_frame_encoder.md rule R232). -/
namespace Sys2Proof.Machine

/-- A chunk in progress followed by a whole chunk. -/
def Chunk.followedBy (a x : Chunk) : Chunk :=
  { block := x.block, emitted := a.emitted ++ x.emitted, events := a.events ++ x.events, diags := a.diags ++ x.diags }

theorem foldl_chunkStep (c : Config) (bs : List Byte) (a : Chunk) :
    bs.foldl (chunkStep c) a = a.followedBy (pushAll c bs a.block) := by
  induction bs generalizing a with
  | nil => simp [pushAll, Chunk.followedBy]
  | cons b bs ih =>
    have h : pushAll c (b :: bs) a.block = bs.foldl (chunkStep c) (chunkStep c ⟨a.block, [], [], []⟩ b) := rfl
    rw [h, List.foldl_cons, ih, ih]
    simp [chunkStep, Chunk.followedBy]

/-- Pushing a byte and then the rest. -/
theorem pushAll_cons (c : Config) (b : Byte) (bs : List Byte) (k : Block) :
    pushAll c (b :: bs) k = (chunkStep c ⟨k, [], [], []⟩ b).followedBy (pushAll c bs (push c b k).block) :=
  foldl_chunkStep c bs _

/-- Partial delivery on the block (40_resync.md rule R110). -/
theorem pushAll_append (c : Config) (as bs : List Byte) (k : Block) :
    pushAll c (as ++ bs) k = (pushAll c as k).followedBy (pushAll c bs (pushAll c as k).block) := by
  rw [pushAll, List.foldl_append, foldl_chunkStep]
  rfl

@[simp] theorem pushAll_nil (c : Config) (k : Block) : pushAll c [] k = ⟨k, [], [], []⟩ := rfl

/-- Content bytes that do not complete the frame they stand in are only buffered (40_resync.md rule R106). -/
theorem pushAll_content {c : Config} {len : Byte} (hc : c.legal = true) (hl : len.toNat ≤ c.lenMax) (more : List Byte) :
    ∀ {k : Block} {body : List Byte}, k.buf = c.syncByte :: len :: body → body.length + more.length < len.toNat →
      pushAll c more k = ⟨{ k with buf := c.syncByte :: len :: (body ++ more) }, [], [], []⟩ := by
  induction more with
  | nil => intro k body hk _; rw [pushAll_nil, List.append_nil, ← hk]
  | cons b more ih =>
    intro k body hk hb
    simp only [List.length_cons] at hb
    rw [pushAll_cons]
    simp only [push_content b hc hk hl (by omega), chunkStep]
    rw [ih (body := body ++ [b]) rfl (by simp; omega)]
    simp [Chunk.followedBy, Scan.event]

/-- A whole candidate pushed from an empty buffer: its record when its CRC checks, a counted mismatch when it does not
(40_resync.md rule R107). -/
theorem pushAll_candidate {c : Config} {len t : Byte} {p : List Byte} (crc : Byte) {k : Block} (hc : c.legal = true)
    (hk : k.buf = []) (hl : len.toNat ≤ c.lenMax) (hp : p.length + 2 = len.toNat) :
    pushAll c (c.syncByte :: len :: t :: (p ++ [crc])) k =
      if crcCheck t p crc then ⟨k, [decodePayload c t p], [decodePayload c t p], []⟩
      else ⟨{ k with crcErrCnt := k.crcErrCnt + 1 }, [], [], [.crcMismatch]⟩ := by
  have e : c.syncByte :: len :: t :: (p ++ [crc]) = [c.syncByte] ++ ([len] ++ ((t :: p) ++ [crc])) := by simp
  rw [e, pushAll_append, pushAll_append, pushAll_append]
  have h1 : pushAll c [c.syncByte] k = ⟨{ k with buf := [c.syncByte] }, [], [], []⟩ := by
    simp [pushAll_cons, chunkStep, push_idle _ hc hk, Chunk.followedBy, Scan.event]
  have h2 : pushAll c [len] { k with buf := [c.syncByte] } = ⟨{ k with buf := [c.syncByte, len] }, [], [], []⟩ := by
    simp [pushAll_cons, chunkStep, push_length (k := { k with buf := [c.syncByte] }) len hc rfl (by omega) hl,
      Chunk.followedBy, Scan.event]
  have h3 : pushAll c (t :: p) { k with buf := [c.syncByte, len] } =
      ⟨{ k with buf := c.syncByte :: len :: t :: p }, [], [], []⟩ := by
    rw [pushAll_content hc hl (t :: p) (k := { k with buf := [c.syncByte, len] }) (body := []) rfl (by simp; omega)]
    simp
  rw [h1, h2, h3]
  have hkb : ({ k with buf := [] } : Block) = k := by cases k; simp_all
  by_cases hcrc : crcCheck t p crc
  · simp [pushAll_cons, chunkStep, push_last (k := { k with buf := c.syncByte :: len :: t :: p }) crc hc rfl hl hp,
      Chunk.followedBy, Scan.event, hcrc, hkb]
  · simp [pushAll_cons, chunkStep, push_last (k := { k with buf := c.syncByte :: len :: t :: p }) crc hc rfl hl hp,
      Chunk.followedBy, Scan.event, hcrc, hk]

/-- A frame's bytes, with the length byte read back. -/
theorem frameBytes_eq (c : Config) (t : Byte) (p : List Byte) :
    c.frameBytes t p = c.syncByte :: BitVec.ofNat 8 (p.length + 2) :: t :: (p ++ [crc8 (t :: p)]) := by
  simp [Config.frameBytes]

/-- The length byte of a payload that fits counts it exactly. -/
theorem frameLength_toNat {c : Config} {p : List Byte} (h : c.fits p = true) :
    (BitVec.ofNat 8 (p.length + 2)).toNat = p.length + 2 := by
  have h1 := (fits_iff c p).mp h
  have h2 := lenMax_le c
  simp
  omega

/-- A frame the encoder builds, pushed from an empty buffer, delivers its record and changes nothing else
(44_frame_encoder.md rule R232). -/
theorem pushAll_frame {c : Config} {t : Byte} {p : List Byte} {k : Block} (hc : c.legal = true) (hk : k.buf = [])
    (hp : c.fits p = true) :
    pushAll c (c.frameBytes t p) k = ⟨k, [decodePayload c t p], [decodePayload c t p], []⟩ := by
  have h1 := frameLength_toNat hp
  rw [frameBytes_eq, pushAll_candidate _ hc hk (by rw [h1]; exact (fits_iff c p).mp hp) h1.symm]
  simp [crcCheck]

/-! ### Through `exec` -/

/-- PUSH_BYTE under the configuration in force. -/
theorem exec_pushByte {s : State} (b : Byte) (h : s.issued = s.config) :
    exec (.pushByte b) s = .next { s with
      block    := (push s.config b s.block).block
      events   := s.events ++ (push s.config b s.block).emitted
      returned := .pushStatus (pushStatus (push s.config b s.block).event (push s.config b s.block).diag
        (push s.config b s.block).block) } := by
  simp [exec, execPushByte, underConfig, h, State.withBlock, State.emit, State.answer]

/-- PUSH_CHUNK under the configuration in force. -/
theorem exec_pushChunk {s : State} (bs : List Byte) (h : s.issued = s.config) :
    exec (.pushChunk bs) s = .next { s with
      block    := (pushAll s.config bs s.block).block
      events   := s.events ++ (pushAll s.config bs s.block).emitted
      returned := .chunkStatus (chunkStatus bs.length (pushAll s.config bs s.block)) } := by
  simp [exec, execPushChunk, underConfig, h, State.withBlock, State.emit, State.answer]

/-- Pushing two stretches one after the other. -/
theorem pushEach_append (as bs : List Byte) (s : State) :
    pushEach (as ++ bs) s = match pushEach as s with
      | .next t => pushEach bs t
      | .fault r => .fault r
      | .refused r => .refused r := by
  induction as generalizing s with
  | nil => rfl
  | cons a as ih => 
    simp only [List.cons_append, pushEach]
    cases exec (.pushByte a) s <;> simp [ih]

/-- Pushing bytes one transaction at a time leaves what the chunk leaves, but for the return value. -/
theorem pushEach_eq {s : State} (bs : List Byte) (h : s.issued = s.config) :
    ∃ r, pushEach bs s = .next { s with
      block    := (pushAll s.config bs s.block).block
      events   := s.events ++ (pushAll s.config bs s.block).emitted
      returned := r } ∧ (bs = [] → r = s.returned) := by
  induction bs generalizing s with
  | nil => exact ⟨s.returned, by simp [pushEach], fun _ => rfl⟩
  | cons b bs ih =>
    rw [pushEach, exec_pushByte b h]
    dsimp only
    obtain ⟨r, hr, -⟩ := ih (s := { s with
      block    := (push s.config b s.block).block
      events   := s.events ++ (push s.config b s.block).emitted
      returned := .pushStatus (pushStatus (push s.config b s.block).event (push s.config b s.block).diag
        (push s.config b s.block).block) }) h
    refine ⟨r, ?_, by simp⟩
    rw [hr, pushAll_cons]
    simp [Chunk.followedBy, chunkStep]

/-- The last of the pushes gives the return value. -/
theorem pushEach_snoc {s : State} (bs : List Byte) (b : Byte) (h : s.issued = s.config) :
    pushEach (bs ++ [b]) s = .next { s with
      block    := (push s.config b (pushAll s.config bs s.block).block).block
      events   := s.events ++ (pushAll s.config (bs ++ [b]) s.block).emitted
      returned := .pushStatus (pushStatus (push s.config b (pushAll s.config bs s.block).block).event
        (push s.config b (pushAll s.config bs s.block).block).diag
        (push s.config b (pushAll s.config bs s.block).block).block) } := by
  obtain ⟨r, hr, -⟩ := pushEach_eq bs h
  rw [pushEach_append, hr]
  simp only [pushEach]
  rw [exec_pushByte b (by exact h)]
  simp [pushAll_append, pushAll_cons, Chunk.followedBy, chunkStep]

end Sys2Proof.Machine
end

