-- ==== Sys2Proof/Laws/PerInstr.lean ====
section
/-! SUPPORT. Statements about every instruction as syntax, made constructor by constructor. -/
namespace Sys2Proof.Laws.Encodes

open Sys2Proof Sys2Proof.Machine

/-- The bytes an instruction encodes to, if it encodes at all, are 4 to 64 and begin with the configured sync byte and
the count of the bytes after the length byte (30_encoding.md rules R70, R72). -/
def Statement (i : Instr) : Prop :=
  ∀ (c : Config) (f : List Byte), encode c i = some f →
    4 ≤ f.length ∧ f.length ≤ 64 ∧ f[0]? = some c.syncByte ∧ f[1]? = some (BitVec.ofNat 8 (f.length - 2))

/-- The one proof: an encoding is the frame of a payload that fits. -/
theorem of_encode (i : Instr) : Statement i := by
  intro c f h
  obtain ⟨t, p, -, hf, rfl⟩ := encode_some h
  have h1 := (fits_iff c p).mp hf
  have h2 := lenMax_le c
  rw [frameBytes_eq]
  simp
  omega

theorem channels (p : List Byte) : Statement (.channels p) := of_encode _
theorem linkStats (p : List Byte) : Statement (.linkStats p) := of_encode _
theorem gps (p : List Byte) : Statement (.gps p) := of_encode _
theorem battery (p : List Byte) : Statement (.battery p) := of_encode _
theorem attitude (p : List Byte) : Statement (.attitude p) := of_encode _
theorem flightMode (p : List Byte) : Statement (.flightMode p) := of_encode _
theorem unknown (t : Byte) (p : List Byte) : Statement (.unknown t p) := of_encode _
theorem pushByte (b : Byte) : Statement (.pushByte b) := of_encode _
theorem pushChunk (bs : List Byte) : Statement (.pushChunk bs) := of_encode _
theorem crc8 (x : List Byte) : Statement (.crc8 x) := of_encode _
theorem crcCheck (t : Byte) (p : List Byte) (c : Byte) : Statement (.crcCheck t p c) := of_encode _
theorem unpack (p : Vector Byte 22) : Statement (.unpack p) := of_encode _
theorem pack (ch : Vector Int 16) : Statement (.pack ch) := of_encode _
theorem decode (t : Byte) (p : List Byte) : Statement (.decode t p) := of_encode _
theorem encode (r : Operand) : Statement (.encode r) := of_encode _
theorem frameEncode (t : Byte) (p : List Byte) : Statement (.frameEncode t p) := of_encode _
theorem encodeRecord (r : Operand) : Statement (.encodeRecord r) := of_encode _
theorem readDiag : Statement .readDiag := of_encode _
theorem reset (cfg : Config) : Statement (.reset cfg) := of_encode _

end Sys2Proof.Laws.Encodes
end

