-- ==== Sys2Proof/Laws/State.lean ====
section
/-! SUPPORT. The fields of the state after each named update: one lemma per field per update, so that no later proof
unfolds a record update. -/
namespace Sys2Proof.Machine

/-! ### `State.answer` -/

@[simp] theorem State.answer_block (r : Returned) (s : State) : (s.answer r).block = s.block := rfl
@[simp] theorem State.answer_config (r : Returned) (s : State) : (s.answer r).config = s.config := rfl
@[simp] theorem State.answer_issued (r : Returned) (s : State) : (s.answer r).issued = s.issued := rfl
@[simp] theorem State.answer_events (r : Returned) (s : State) : (s.answer r).events = s.events := rfl
@[simp] theorem State.answer_sent (r : Returned) (s : State) : (s.answer r).sent = s.sent := rfl
@[simp] theorem State.answer_returned (r : Returned) (s : State) : (s.answer r).returned = r := rfl
@[simp] theorem State.answer_host (r : Returned) (s : State) : (s.answer r).host = s.host := rfl

/-! ### `State.emit` -/

@[simp] theorem State.emit_block (es : List Event) (s : State) : (s.emit es).block = s.block := rfl
@[simp] theorem State.emit_config (es : List Event) (s : State) : (s.emit es).config = s.config := rfl
@[simp] theorem State.emit_issued (es : List Event) (s : State) : (s.emit es).issued = s.issued := rfl
@[simp] theorem State.emit_events (es : List Event) (s : State) : (s.emit es).events = s.events ++ es := rfl
@[simp] theorem State.emit_sent (es : List Event) (s : State) : (s.emit es).sent = s.sent := rfl
@[simp] theorem State.emit_returned (es : List Event) (s : State) : (s.emit es).returned = s.returned := rfl
@[simp] theorem State.emit_host (es : List Event) (s : State) : (s.emit es).host = s.host := rfl

/-! ### `State.transmit` -/

@[simp] theorem State.transmit_block (f : List Byte) (s : State) : (s.transmit f).block = s.block := rfl
@[simp] theorem State.transmit_config (f : List Byte) (s : State) : (s.transmit f).config = s.config := rfl
@[simp] theorem State.transmit_issued (f : List Byte) (s : State) : (s.transmit f).issued = s.issued := rfl
@[simp] theorem State.transmit_events (f : List Byte) (s : State) : (s.transmit f).events = s.events := rfl
@[simp] theorem State.transmit_sent (f : List Byte) (s : State) : (s.transmit f).sent = s.sent ++ [f] := rfl
@[simp] theorem State.transmit_returned (f : List Byte) (s : State) : (s.transmit f).returned = s.returned := rfl
@[simp] theorem State.transmit_host (f : List Byte) (s : State) : (s.transmit f).host = s.host := rfl

/-! ### `State.withBlock` -/

@[simp] theorem State.withBlock_block (k : Block) (s : State) : (s.withBlock k).block = k := rfl
@[simp] theorem State.withBlock_config (k : Block) (s : State) : (s.withBlock k).config = s.config := rfl
@[simp] theorem State.withBlock_issued (k : Block) (s : State) : (s.withBlock k).issued = s.issued := rfl
@[simp] theorem State.withBlock_events (k : Block) (s : State) : (s.withBlock k).events = s.events := rfl
@[simp] theorem State.withBlock_sent (k : Block) (s : State) : (s.withBlock k).sent = s.sent := rfl
@[simp] theorem State.withBlock_returned (k : Block) (s : State) : (s.withBlock k).returned = s.returned := rfl
@[simp] theorem State.withBlock_host (k : Block) (s : State) : (s.withBlock k).host = s.host := rfl

/-! ### `State.begin` -/

@[simp] theorem State.begin_block (cfg : Config) (rest : List Request) (s : State) : (s.begin cfg rest).block = s.block := rfl
@[simp] theorem State.begin_config (cfg : Config) (rest : List Request) (s : State) : (s.begin cfg rest).config = s.config := rfl
@[simp] theorem State.begin_issued (cfg : Config) (rest : List Request) (s : State) : (s.begin cfg rest).issued = cfg := rfl
@[simp] theorem State.begin_events (cfg : Config) (rest : List Request) (s : State) : (s.begin cfg rest).events = s.events := rfl
@[simp] theorem State.begin_sent (cfg : Config) (rest : List Request) (s : State) : (s.begin cfg rest).sent = s.sent := rfl
@[simp] theorem State.begin_returned (cfg : Config) (rest : List Request) (s : State) : (s.begin cfg rest).returned = s.returned := rfl
@[simp] theorem State.begin_host (cfg : Config) (rest : List Request) (s : State) : (s.begin cfg rest).host = rest := rfl

/-! ### `State.withFetchWord` -/

@[simp] theorem State.withFetchWord_buf (s : State) (nbits w : Nat) : (s.withFetchWord nbits w).block.buf = [] := rfl
@[simp] theorem State.withFetchWord_config (s : State) (nbits w : Nat) : (s.withFetchWord nbits w).config = s.config := rfl
@[simp] theorem State.withFetchWord_issued (s : State) (nbits w : Nat) : (s.withFetchWord nbits w).issued = s.issued := rfl
@[simp] theorem State.withFetchWord_events (s : State) (nbits w : Nat) : (s.withFetchWord nbits w).events = s.events := rfl
@[simp] theorem State.withFetchWord_sent (s : State) (nbits w : Nat) : (s.withFetchWord nbits w).sent = s.sent := rfl
@[simp] theorem State.withFetchWord_returned (s : State) (nbits w : Nat) : (s.withFetchWord nbits w).returned = s.returned := rfl
@[simp] theorem State.withFetchWord_host (s : State) (nbits w : Nat) :
    (s.withFetchWord nbits w).host = { config := s.config, item := .wire (s.config.tableFrame nbits w) } :: s.host := rfl

end Sys2Proof.Machine
end

