-- ==== Sys2Proof/Machine/Stimulus.lean ====
section
/-! DEFINITION. The stimulus statements of the spec's test programs (30_encoding.md rules R81, R82) and their expansion
into the host's requests. It has no effect on the machine's semantics (92_eei_decisions.md D24). -/
namespace Sys2Proof.Machine

/-- The named parameters of a RESET statement; a parameter not named keeps its default (30_encoding.md rule R81). -/
structure ResetParams where
  syncByte  : Option Byte
  maxFrame  : Option Nat
  bufCap    : Option Nat
  decodeSet : Option DecodeSet
  deriving DecidableEq, Repr

/-- RESET with no parameter named. -/
def noParams : ResetParams := { syncByte := none, maxFrame := none, bufCap := none, decodeSet := none }

/-- "RESET with the defaults of 00_scope.md rule R6, or with the named parameters changed" (30_encoding.md rule R81). -/
def ResetParams.config (r : ResetParams) : Config where
  syncByte  := r.syncByte.getD Config.default.syncByte
  maxFrame  := r.maxFrame.getD Config.default.maxFrame
  bufCap    := r.bufCap.getD Config.default.bufCap
  decodeSet := r.decodeSet.getD Config.default.decodeSet

/-- A stimulus statement (30_encoding.md rule R81) or pseudo-statement (rule R82). -/
inductive Statement where
  | reset (params : ResetParams)
  | push (bytes : List Byte)
  | encode (r : Operand)
  | txframe (t : Byte) (p : List Byte)
  | readDiag
  | frame (t : Byte) (p : List Byte)
  | frameCrc (t : Byte) (p : List Byte) (crc : Byte)
  | garbage (bytes : List Byte)
  deriving DecidableEq, Repr

/-- The bytes `S L t p0 ... pn C` of a FRAME pseudo-statement, L = payload length + 2; none when L is no byte
(30_encoding.md rule R82). L above LEN_MAX is legal stimulus. -/
def stimulusFrame (sync t : Byte) (p : List Byte) (crc : Byte) : Option (List Byte) :=
  if p.length + 2 ≤ 255 then some ([sync, BitVec.ofNat 8 (p.length + 2), t] ++ p ++ [crc]) else none

/-- The operation a statement is, under the configuration in force (30_encoding.md rules R81, R82). -/
def Statement.expand (c : Config) : Statement → Option HostOp
  | .reset params     => some (.reset params.config)
  | .push bytes       => some (.pushChunk bytes)
  | .encode r         => some (.encodeRecord r)
  | .txframe t p      => some (.frameEncode t p)
  | .readDiag         => some .readDiag
  | .frame t p        => (stimulusFrame c.syncByte t p (crc8 ([t] ++ p))).map .pushChunk
  | .frameCrc t p crc => (stimulusFrame c.syncByte t p crc).map .pushChunk
  | .garbage bytes    => some (.pushChunk bytes)

/-- The configuration in force after a statement (70_reset_and_hazards.md rule R282). -/
def Statement.configAfter (c : Config) : Statement → Config
  | .reset params   => params.config
  | .push _         => c
  | .encode _       => c
  | .txframe _ _    => c
  | .readDiag       => c
  | .frame _ _      => c
  | .frameCrc _ _ _ => c
  | .garbage _      => c

/-- The requests of a stimulus program, each issued under the configuration in force. -/
def requests (c : Config) : List Statement → Option (List Request)
  | []      => some []
  | x :: xs =>
    match x.expand c, requests (x.configAfter c) xs with
    | some h, some rest => some ({ config := c, item := .op h } :: rest)
    | _, _              => none

/-- Hand a stimulus program to the machine: the host queues its requests. -/
def State.load (program : List Statement) (s : State) : Option State :=
  (requests s.config program).map fun rs => { s with host := s.host ++ rs }

end Sys2Proof.Machine
end

