-- ==== Sys2Proof/Tests/Slice0.lean ====
section
/-! SUPPORT. Tests: ill-formed instructions, decoding of frames written out from the spec, small steps whose results stand
in 95_test_vectors.md, and for every obligation with hypotheses a witness that meets them together. -/
namespace Sys2Proof.Tests

open Sys2Proof Sys2Proof.Machine

-- One theorem after the other: many kernel evaluations at once take a thread each.
set_option Elab.async false

/-! ### Helpers -/

/-- The machine after reset, holding `buf`. -/
def holding (buf : List Byte) : State := { State.reset with block := { Block.reset with buf := buf } }

/-- The machine after RESET with another configuration. -/
def under (c : Config) : State := { State.reset with config := c, issued := c }

/-- The default configuration with some MAX_FRAME. -/
def maxFrame (n : Nat) : Config := { Config.default with maxFrame := n }

/-- The link-statistics payload, the battery payload and the channels 0 to 15 of 95_test_vectors.md sections 1.1, 2.4. -/
def linkBytes : List Byte := [0x4B#8, 0x50#8, 0x64#8, 0xFB#8, 0x00#8, 0x02#8, 0x03#8, 0x3C#8, 0x62#8, 0x08#8]
def battBytes : List Byte := [0x00#8, 0xA8#8, 0x00#8, 0x7B#8, 0x00#8, 0x05#8, 0xDC#8, 0x4B#8]
def gpsBytes : List Byte :=
  [0x1C#8, 0x40#8, 0x52#8, 0x4B#8, 0xB7#8, 0x08#8, 0x47#8, 0x95#8, 0x00#8, 0x7D#8, 0x23#8, 0x28#8, 0x05#8, 0xDC#8, 0x0C#8]
def attBytes : List Byte := [0x03#8, 0xE8#8, 0xF8#8, 0x30#8, 0x7A#8, 0xB8#8]
def chanBytes : List Byte :=
  [0x00#8, 0x08#8, 0x80#8, 0x00#8, 0x06#8, 0x40#8, 0x80#8, 0x02#8, 0x18#8, 0xE0#8, 0x00#8] ++
  [0x08#8, 0x48#8, 0x80#8, 0x02#8, 0x16#8, 0xC0#8, 0x80#8, 0x06#8, 0x38#8, 0xE0#8, 0x01#8]
def linkRecord : LinkStats Int := ⟨75, 80, 100, -5, 0, 2, 3, 60, 98, 8⟩
def gpsRecord : Gps Int := ⟨473977419, -1224194155, 125, 9000, 1500, 12⟩
def battRecord : Battery Int := ⟨168, 123, 1500, 75⟩
def attRecord : Attitude Int := ⟨1000, -2000, 31416⟩
def zeroTo15 : Vector Int 16 := #v[0, 1, 2, 3, 4, 5, 6, 7, 8, 9, 10, 11, 12, 13, 14, 15]
def chan (v : Int) : Vector Int 16 := #v[v, 0, 0, 0, 0, 0, 0, 0, 0, 0, 0, 0, 0, 0, 0, 0]
def zeros (n : Nat) : List Byte := List.replicate n 0x00#8
def linkFrame : List Byte := [0xC8#8, 0x0C#8, 0x14#8] ++ linkBytes ++ [0xBA#8]
def battFrame : List Byte := [0xC8#8, 0x0A#8, 0x08#8] ++ battBytes ++ [0x29#8]

/-- The events and the buffer a next state has. -/
def eventsOf (o : Host.Outcome State Fault Refusal) : Option (List Event × List Byte) :=
  (nextState o).map fun t => (t.events, t.block.buf)

/-- What an operation returns. -/
def returnOf (o : Host.Outcome State Fault Refusal) : Option Returned := (nextState o).map fun t => t.returned

/-- The frames a next state has transmitted. -/
def sentOf (o : Host.Outcome State Fault Refusal) : Option (List (List Byte)) := (nextState o).map fun t => t.sent

/-- What a push leaves: the buffer, its diag, its event, and the two reachable counters. -/
structure Pushed where
  buf       : List Byte
  diag      : Option Diag
  event     : Option Event
  malformed : Counter
  crcErr    : Counter
  deriving DecidableEq, Repr

def pushed (b : Byte) (s : State) : Option Pushed :=
  match nextState (exec (.pushByte b) s) with
  | some t => t.status.map fun st => ⟨t.block.buf, st.diag, st.event, t.block.malformedCnt, t.block.crcErrCnt⟩
  | none   => none

/-! ### Ill-formed instructions are refused by the check -/

theorem test_ill_channels : Instr.wellFormed Config.default (.channels (zeros 21)) = false := by decide
theorem test_ill_channels_too_long : Instr.wellFormed (maxFrame 25) (.channels (zeros 22)) = false := by decide
theorem test_ill_linkStats : Instr.wellFormed Config.default (.linkStats (zeros 11)) = false := by decide
theorem test_ill_gps : Instr.wellFormed Config.default (.gps (zeros 14)) = false := by decide
theorem test_ill_battery : Instr.wellFormed Config.default (.battery (zeros 9)) = false := by decide
theorem test_ill_attitude : Instr.wellFormed Config.default (.attitude (zeros 5)) = false := by decide
theorem test_ill_flightMode_empty : Instr.wellFormed Config.default (.flightMode []) = false := by decide
theorem test_ill_flightMode_inner_zero :
    Instr.wellFormed Config.default (.flightMode [0x41#8, 0x00#8, 0x42#8, 0x00#8]) = false := by decide
theorem test_ill_unknown_taken : Instr.wellFormed Config.default (.unknown 0x08#8 battBytes) = false := by decide
theorem test_ill_unknown_long : Instr.wellFormed Config.default (.unknown 0x7F#8 (zeros 61)) = false := by decide
theorem test_ill_crcCheck : Instr.wellFormed Config.default (.crcCheck 0x7F#8 (zeros 61) 0x00#8) = false := by decide
theorem test_ill_pack_high : Instr.wellFormed Config.default (.pack (chan 2048)) = false := by decide
theorem test_ill_pack_low : Instr.wellFormed Config.default (.pack (chan (-1))) = false := by decide
theorem test_ill_decode : Instr.wellFormed Config.default (.decode 0x7F#8 (zeros 61)) = false := by decide
theorem test_ill_encode_field :
    Instr.wellFormed Config.default (.encode (.battery ⟨.raw 0, .raw 0, .raw 16777216, .raw 0⟩)) = false := by decide
theorem test_ill_encode_physical :
    Instr.wellFormed Config.default (.encode (.battery ⟨.physical (337 / 20), .raw 0, .raw 0, .raw 0⟩)) = false := by
  decide +kernel
theorem test_ill_frameEncode : Instr.wellFormed Config.default (.frameEncode 0x7F#8 (zeros 61)) = false := by decide
theorem test_ill_encodeRecord_label :
    Instr.wellFormed Config.default (.encodeRecord (.flightMode [0x41#8, 0x00#8, 0x42#8])) = false := by decide
theorem test_ill_encodeRecord_short_frame :
    Instr.wellFormed (maxFrame 12) (.encodeRecord (.linkStats
      ⟨.raw 0, .raw 0, .raw 0, .raw 0, .raw 0, .raw 0, .raw 0, .raw 0, .raw 0, .raw 0⟩)) = false := by decide
theorem test_ill_reset_bufCap :
    Instr.wellFormed Config.default (.reset { Config.default with bufCap := 32 }) = false := by decide
theorem test_ill_reset_maxFrame_low : Instr.wellFormed Config.default (.reset (maxFrame 3)) = false := by decide
theorem test_ill_reset_maxFrame_high :
    Instr.wellFormed Config.default (.reset { Config.default with maxFrame := 256, bufCap := 256 }) = false := by decide

/-! ### Decoding (frames of 95_test_vectors.md sections 1.1 and 2.4) -/

theorem test_decode_linkStats : (decode Config.default linkFrame).toOption = some (.linkStats linkBytes, []) := by
  decide +kernel
theorem test_decode_gps :
    (decode Config.default ([0xC8#8, 0x11#8, 0x02#8] ++ gpsBytes ++ [0xF8#8])).toOption = some (.gps gpsBytes, []) := by
  decide +kernel
theorem test_decode_battery_then_more :
    (decode Config.default (battFrame ++ [0xC8#8, 0x02#8])).toOption = some (.battery battBytes, [0xC8#8, 0x02#8]) := by
  decide +kernel
theorem test_decode_flightMode :
    (decode Config.default [0xC8#8, 0x07#8, 0x21#8, 0x41#8, 0x43#8, 0x52#8, 0x4F#8, 0x00#8, 0x80#8]).toOption =
      some (.flightMode [0x41#8, 0x43#8, 0x52#8, 0x4F#8, 0x00#8], []) := by decide +kernel
theorem test_decode_channels :
    (decode Config.default ([0xC8#8, 0x18#8, 0x16#8] ++ chanBytes ++ [0x20#8])).toOption =
      some (.channels chanBytes, []) := by decide +kernel
theorem test_decode_attitude :
    (decode Config.default ([0xC8#8, 0x08#8, 0x1E#8] ++ attBytes ++ [0xAC#8])).toOption = some (.attitude attBytes, []) := by
  decide +kernel
/-- A channel-code frame of one payload byte is Unknown (section 2.3). -/
theorem test_decode_wrong_length :
    (decode Config.default [0xC8#8, 0x03#8, 0x16#8, 0x00#8, 0x8A#8]).toOption = some (.unknown 0x16#8 [0x00#8], []) := by
  decide +kernel
/-- A sync value that is also a legal length (section 2.5). -/
theorem test_decode_sync_05 :
    (decode { Config.default with syncByte := 0x05#8 } [0x05#8, 0x05#8, 0x7F#8, 0x01#8, 0x02#8, 0x03#8, 0x86#8]).toOption =
      some (.unknown 0x7F#8 [0x01#8, 0x02#8, 0x03#8], []) := by decide +kernel
theorem test_encode_longest :
    (encode Config.default (.unknown 0x7F#8 (zeros 60))) =
      some ([0xC8#8, 0x3E#8, 0x7F#8] ++ zeros 60 ++ [0x45#8]) := by decide +kernel
theorem test_encode_host_operation : encode Config.default .readDiag = none := by decide

/-- The opcode table's rows, each by its type byte (spec/opcode_table.json "match"). -/
theorem test_table_words :
    decodeTableWord 8 0x16 = some (.channels (zeros 22)) ∧ decodeTableWord 8 0x14 = some (.linkStats (zeros 10)) ∧
    decodeTableWord 8 0x02 = some (.gps (zeros 15)) ∧ decodeTableWord 8 0x08 = some (.battery (zeros 8)) ∧
    decodeTableWord 8 0x1E = some (.attitude (zeros 6)) ∧ decodeTableWord 8 0x21 = some (.flightMode (zeros 1)) ∧
    decodeTableWord 8 0x7F = some (.unknown 0x7F#8 []) := by decide +kernel

/-- The very next step runs the table's instruction. -/
theorem test_fetch_word_channels :
    eventsOf (step (State.reset.withFetchWord 8 0x16)) =
      some ([.channels #v[0, 0, 0, 0, 0, 0, 0, 0, 0, 0, 0, 0, 0, 0, 0, 0]], []) := by decide +kernel
theorem test_fetch_word_unknown :
    eventsOf (step ((holding [0xC8#8]).withFetchWord 8 0x7F)) = some ([.unknown 0x7F#8 []], []) := by decide +kernel

/-! ### Frame rows (sections 1.1, 2.3, 2.4) -/

theorem test_channels : eventsOf (exec (.channels chanBytes) State.reset) = some ([.channels zeroTo15], []) := by
  decide +kernel
/-- 15 zeros, then 2047 (section 2.3). -/
theorem test_channels_last :
    eventsOf (exec (.channels (zeros 20 ++ [0xE0#8, 0xFF#8])) State.reset) =
      some ([.channels #v[0, 0, 0, 0, 0, 0, 0, 0, 0, 0, 0, 0, 0, 0, 0, 2047]], []) := by decide +kernel
theorem test_linkStats : eventsOf (exec (.linkStats linkBytes) State.reset) = some ([.linkStats linkRecord], []) := by
  decide +kernel
theorem test_gps : eventsOf (exec (.gps gpsBytes) State.reset) = some ([.gps gpsRecord], []) := by decide +kernel
theorem test_battery : eventsOf (exec (.battery battBytes) State.reset) = some ([.battery battRecord], []) := by
  decide +kernel
theorem test_attitude : eventsOf (exec (.attitude attBytes) State.reset) = some ([.attitude attRecord], []) := by
  decide +kernel
theorem test_flightMode :
    eventsOf (exec (.flightMode [0x41#8, 0x43#8, 0x52#8, 0x4F#8, 0x00#8]) State.reset) =
      some ([.flightMode [0x41#8, 0x43#8, 0x52#8, 0x4F#8]], []) := by decide +kernel
theorem test_flightMode_not_canonical :
    eventsOf (exec (.flightMode [0x41#8, 0x00#8, 0x42#8, 0x00#8]) State.reset) =
      some ([.unknown 0x21#8 [0x41#8, 0x00#8, 0x42#8, 0x00#8]], []) := by decide +kernel
theorem test_unknown :
    eventsOf (exec (.unknown 0x7F#8 [0x01#8, 0x02#8, 0x03#8]) State.reset) =
      some ([.unknown 0x7F#8 [0x01#8, 0x02#8, 0x03#8]], []) := by decide +kernel
/-- P7: a type outside DECODE_SET passes through as Unknown. -/
theorem test_gps_not_decoded :
    eventsOf (exec (.gps gpsBytes) (under { Config.default with decodeSet := ⟨true, true, false, true, true, true⟩ })) =
      some ([.unknown 0x02#8 gpsBytes], []) := by decide +kernel

/-! ### The resynchronizer (section 2.6, rows V-R1 to V-R11) -/

theorem test_push_wait_and_hunt :
    pushed 0x00#8 (holding []) = some ⟨[], none, none, 0, 0⟩ ∧
    pushed 0xC8#8 (holding []) = some ⟨[0xC8#8], none, none, 0, 0⟩ ∧
    pushed 0x3E#8 (holding [0xC8#8]) = some ⟨[0xC8#8, 0x3E#8], none, none, 0, 0⟩ ∧
    pushed 0xC8#8 (holding [0xC8#8, 0x0C#8, 0x14#8]) = some ⟨[0xC8#8, 0x0C#8, 0x14#8, 0xC8#8], none, none, 0, 0⟩ := by
  decide +kernel
theorem test_push_conditions :
    pushed 0x01#8 (holding [0xC8#8]) = some ⟨[], some .malformedLength, none, 1, 0⟩ ∧
    pushed 0x3F#8 (holding [0xC8#8]) = some ⟨[], some .malformedLength, none, 1, 0⟩ ∧
    pushed 0xC8#8 (holding [0xC8#8]) = some ⟨[0xC8#8], some .malformedLength, none, 1, 0⟩ ∧
    pushed 0x16#8 (holding [0xC8#8, 0x02#8, 0x7F#8]) = some ⟨[], none, some (.unknown 0x7F#8 []), 0, 0⟩ ∧
    pushed 0x87#8 (holding [0xC8#8, 0x05#8, 0x7F#8, 0x01#8, 0x02#8, 0x03#8]) =
      some ⟨[], some .crcMismatch, none, 0, 1⟩ := by decide +kernel

/-- P4: a false sync byte loses the frame that follows it. -/
theorem test_pushChunk_collision :
    (nextState (exec (.pushChunk ([0xC8#8, 0x05#8] ++ linkFrame ++ battFrame)) State.reset)).map
        (fun t => (t.events, t.block)) =
      some ([.battery battRecord], ⟨[], 0, 1, 0⟩) := by decide +kernel
/-- P2: malformed lengths before a frame, with the record the chunk returns. -/
theorem test_pushChunk_malformed :
    returnOf (exec (.pushChunk ([0xC8#8, 0x00#8, 0xC8#8, 0x3F#8] ++ linkFrame)) State.reset) =
      some (.chunkStatus ⟨[.linkStats linkRecord], 18, false, [.malformedLength, .malformedLength]⟩) := by decide +kernel

/-! ### The pure operations (sections 2.1 to 2.4) -/

theorem test_crc8 : returnOf (exec (.crc8 [0x7F#8, 0x01#8, 0x02#8, 0x03#8]) State.reset) = some (.crc 0x86#8) := by
  decide +kernel
theorem test_crc8_longest : returnOf (exec (.crc8 (0x7F#8 :: zeros 60)) State.reset) = some (.crc 0x45#8) := by
  decide +kernel
theorem test_crcCheck : returnOf (exec (.crcCheck 0x14#8 linkBytes 0xBA#8) State.reset) = some (.crcOk true) := by
  decide +kernel
theorem test_crcCheck_wrong : returnOf (exec (.crcCheck 0x14#8 linkBytes 0x45#8) State.reset) = some (.crcOk false) := by
  decide +kernel
theorem test_pack : returnOf (exec (.pack zeroTo15) State.reset) = some (.payload chanBytes) := by decide +kernel
theorem test_pack_refused : refusalOf (exec (.pack (chan 2048)) State.reset) = some .channelOutOfRange := by decide +kernel
/-- 2047, then 15 zeros (section 2.3). -/
theorem test_unpack :
    returnOf (exec (.unpack #v[0xFF#8, 0x07#8, 0#8, 0#8, 0#8, 0#8, 0#8, 0#8, 0#8, 0#8, 0#8, 0#8, 0#8, 0#8, 0#8, 0#8, 0#8,
      0#8, 0#8, 0#8, 0#8, 0#8]) State.reset) = some (.channels (chan 2047)) := by decide +kernel
theorem test_decode : returnOf (exec (.decode 0x02#8 gpsBytes) State.reset) = some (.record (.gps gpsRecord)) := by
  decide +kernel
/-- 16.8 V encodes to raw 168, and 16.85 V is refused (section 2.4). -/
theorem test_encode_volts :
    returnOf (exec (.encode (.battery ⟨.physical (84 / 5), .raw 123, .raw 1500, .raw 75⟩)) State.reset) =
      some (.typeAndPayload 0x08#8 battBytes) := by decide +kernel
theorem test_encode_refused :
    refusalOf (exec (.encode (.battery ⟨.physical (337 / 20), .raw 123, .raw 1500, .raw 75⟩)) State.reset) =
      some .notRepresentable ∧
    refusalOf (exec (.encode (.attitude ⟨.raw 32768, .raw 0, .raw 0⟩)) State.reset) = some .fieldOutOfRange ∧
    refusalOf (exec (.encode (.flightMode (List.replicate 60 0x41#8))) State.reset) = some .labelInvalid := by decide +kernel

/-! ### The frame encoder, diagnostics and reset (sections 2.4, 2.5, 2.7) -/

theorem test_frameEncode :
    sentOf (exec (.frameEncode 0x7F#8 [0x01#8, 0x02#8, 0x03#8]) (under { Config.default with syncByte := 0x05#8 })) =
      some [[0x05#8, 0x05#8, 0x7F#8, 0x01#8, 0x02#8, 0x03#8, 0x86#8]] := by decide +kernel
theorem test_frameEncode_refused :
    refusalOf (exec (.frameEncode 0x7F#8 (zeros 61)) State.reset) = some .payloadTooLong := by decide +kernel
theorem test_encodeRecord :
    sentOf (exec (.encodeRecord (Record.asRaw (.linkStats linkRecord))) State.reset) = some [linkFrame] := by decide +kernel
/-- P7: DECODE_SET does not stop encoding. -/
theorem test_encodeRecord_not_decoded :
    sentOf (exec (.encodeRecord (Record.asRaw (.gps gpsRecord)))
      (under { Config.default with decodeSet := ⟨true, true, false, true, true, true⟩ })) =
      some [[0xC8#8, 0x11#8, 0x02#8] ++ gpsBytes ++ [0xF8#8]] := by decide +kernel
/-- A counter wraps from 2^32 - 1 to 0 (60_exceptions.md rule R262). -/
theorem test_readDiag_wrap :
    (match nextState (exec (.pushByte 0x00#8)
        { State.reset with block := ⟨[0xC8#8], 0xFFFFFFFF#32, 7#32, 0#32⟩ }) with
     | some t => returnOf (exec .readDiag t)
     | none   => none) = some (.counters ⟨0#32, 7#32, 0#32⟩) := by decide +kernel
theorem test_reset :
    (nextState (exec (.reset (maxFrame 12)) { State.reset with block := ⟨[0xC8#8, 0x0C#8], 3, 2, 1⟩ })).map
      (fun t => (t.block, t.config.lenMax)) = some (⟨[], 0, 0, 0⟩, 10) := by decide +kernel
theorem test_reset_refused :
    refusalOf (exec (.reset { Config.default with bufCap := 32 }) State.reset) = some .configIllegal := by decide +kernel
theorem test_config_changed :
    refusalOf (exec .readDiag { State.reset with issued := maxFrame 12 }) = some .configChanged := by decide +kernel

/-- The stimulus FRAME with a payload of 61 bytes expands, malformed as it is (section 2.5). -/
theorem test_stimulus_too_long :
    Statement.expand Config.default (.frame 0x7F#8 (zeros 61)) =
      some (.pushChunk ([0xC8#8, 0x3F#8, 0x7F#8] ++ zeros 61 ++ [0xB6#8])) := by decide +kernel

/-! ### Witnesses: for every obligation with hypotheses, states and operands that meet them together -/

/-- After reset the host issues under the configuration in force, which is legal, and every type is decoded. -/
theorem witness_reset : State.reset.issued = State.reset.config ∧ State.reset.config.legal = true ∧
    State.reset.config.decodeSet = ⟨true, true, true, true, true, true⟩ ∧ State.reset.block.buf = [] := by decide

theorem witness_DecodeInvertsEncode : Instr.wellFormed Config.default (.battery battBytes) = true ∧
    Instr.isFrame (.battery battBytes) = true := by decide

theorem witness_EncodeInvertsDecode : decode Config.default linkFrame = .ok (.linkStats linkBytes, []) := by decide +kernel

/-- A host whose queue holds one item. -/
def pending (i : Item) (buf : List Byte) : State := { holding buf with host := [{ config := Config.default, item := i }] }

/-- The five clauses: nothing pending; an operation; a whole frame at a boundary; a byte inside a frame and a byte that
starts no whole frame; an empty stretch. -/
theorem witness_StepRunsTheNextUnitOfWork :
    (State.reset.host = [] ∧ (pending (.op .readDiag) []).host = [{ config := Config.default, item := .op .readDiag }]) ∧
    ((pending (.wire battFrame) []).block.buf = [] ∧
      decode (pending (.wire battFrame) []).config battFrame = .ok (.battery battBytes, [])) ∧
    (pending (.wire battFrame) [0xC8#8]).block.buf ≠ [] ∧
    (∀ r, decode (pending (.wire [0x00#8]) []).config [0x00#8] ≠ .ok r) ∧
    (pending (.wire []) []).host = [{ config := Config.default, item := .wire [] }] := by
  refine ⟨by decide, by decide +kernel, by decide, ?_, by decide⟩
  intro r
  have h : decode (pending (.wire [0x00#8]) []).config [0x00#8] = .error .notSync := by decide +kernel
  rw [h]
  simp

theorem witness_ChannelsFrameDelivers : (zeros 22).length = 22 ∧ State.reset.config.decodeSet.channels = true := by decide

theorem witness_FlightModeFrameDelivers :
    (∀ b ∈ ([] : List Byte), b ≠ 0x00#8) ∧ ∀ b ∈ [0x41#8, 0xFF#8], b ≠ 0x00#8 := by decide

/-- A code of no row; a known code with one byte too few, one too many; a flight-mode payload without its form. -/
theorem witness_UnknownFrameDelivers :
    (0x7F#8 ≠ 0x16#8 ∧ 0x7F#8 ≠ 0x14#8 ∧ 0x7F#8 ≠ 0x02#8 ∧ 0x7F#8 ≠ 0x08#8 ∧ 0x7F#8 ≠ 0x1E#8 ∧ 0x7F#8 ≠ 0x21#8) ∧
    (zeros 21).length ≠ 22 ∧ (zeros 23).length ≠ 22 ∧
    ¬ ∃ label : List Byte, [] = label ++ [0x00#8] ∧ ∀ b ∈ label, b ≠ 0x00#8 := by
  refine ⟨by decide, by decide, by decide, ?_⟩
  rintro ⟨label, h, -⟩
  cases label <;> simp at h

theorem witness_KnownCodeOfWrongShapeIsUnknown :
    (zeros 21).length ≠ 22 ∧ (zeros 23).length ≠ 22 ∧ (zeros 9).length ≠ 10 ∧ (zeros 11).length ≠ 10 ∧
    (zeros 14).length ≠ 15 ∧ (zeros 16).length ≠ 15 ∧ (zeros 7).length ≠ 8 ∧ (zeros 9).length ≠ 8 ∧
    (zeros 5).length ≠ 6 ∧ (zeros 7).length ≠ 6 ∧
    (∀ label : List Byte, [0x00#8, 0x00#8] = label ++ [0x00#8] → 0x00#8 ∈ label) ∧
    (under { Config.default with decodeSet := ⟨false, false, false, false, false, false⟩ }).config.decodeSet.gps = false := by
  refine ⟨by decide, by decide, by decide, by decide, by decide, by decide, by decide, by decide, by decide, by decide, ?_,
    by decide⟩
  intro label h
  rcases label with _ | ⟨a, l⟩
  · simp at h
  · simp at h; simp [← h.1]

theorem witness_DecodeReturnsWhatTheFrameDelivers :
    Instr.typeAndPayload (.unknown 0x08#8 battBytes) = some (0x08#8, battBytes) := by decide

theorem witness_DecodedRecordsAreWithinTheirWidths :
    State.reset.config.fits (zeros 60) = true ∧ State.reset.config.fits [] = true := by decide

/-- One state for each clause: HUNT or a sync byte from Q0; MALFORMED at 1, 63 and 0xC8; lengths 2 and 62; one byte short of
the frame and content of any value; the last byte with a CRC that matches and one that does not; and a sync value that is a
legal length (rule R113). -/
theorem witness_PushByteFromEachQuiescentShape :
    ((holding []).block.buf = [] ∧ (holding [0xC8#8]).block.buf = [(holding [0xC8#8]).config.syncByte]) ∧
    ¬ (2 ≤ (0x01#8).toNat ∧ (0x01#8).toNat ≤ State.reset.config.lenMax) ∧
    ¬ (2 ≤ (0x3F#8).toNat ∧ (0x3F#8).toNat ≤ State.reset.config.lenMax) ∧
    ¬ (2 ≤ (0xC8#8).toNat ∧ (0xC8#8).toNat ≤ State.reset.config.lenMax) ∧
    (2 ≤ (0x02#8).toNat ∧ (0x3E#8).toNat ≤ State.reset.config.lenMax) ∧
    ((0x02#8).toNat ≤ State.reset.config.lenMax ∧ ([] : List Byte).length + 1 < (0x02#8).toNat) ∧
    (([] : List Byte).length + 2 = (0x02#8).toNat ∧ crc8 ([0x7F#8] ++ []) = 0x16#8 ∧ crc8 ([0x7F#8] ++ []) ≠ 0x17#8) ∧
    (2 ≤ ({ Config.default with syncByte := 0x05#8 } : Config).syncByte.toNat ∧
      ({ Config.default with syncByte := 0x05#8 } : Config).legal = true) := by decide +kernel

/-- A full buffer: only an illegal configuration or an unreachable state shows it. -/
theorem witness_PushIntoFullBufferDropsTheOldest :
    (holding (zeros 64)).issued = (holding (zeros 64)).config ∧
    (holding (zeros 64)).block.buf.length = (holding (zeros 64)).config.bufCap ∧ 0 < (holding (zeros 64)).config.bufCap := by
  decide

/-- The longest quiescent buffer, 63 bytes, and the longest at the smallest MAX_FRAME. -/
theorem witness_QuiescentBufferIsNeverFull :
    (Config.default.legal = true ∧ quiescent Config.default (0xC8#8 :: 0x3E#8 :: zeros 61) = true ∧
      (0xC8#8 :: 0x3E#8 :: zeros 61).length = 63) ∧
    ((maxFrame 4).legal = true ∧ quiescent (maxFrame 4) [0xC8#8, 0x02#8, 0x00#8] = true) := by decide +kernel

theorem witness_ChunkReturnsTheEventsItDelivers :
    (holding [0xC8#8, 0x0C#8]).issued = (holding [0xC8#8, 0x0C#8]).config ∧ (holding [0xC8#8, 0x0C#8]).config.legal = true ∧
    quiescent (holding [0xC8#8, 0x0C#8]).config (holding [0xC8#8, 0x0C#8]).block.buf = true := by decide

/-- Garbage with a sync byte and a malformed length in it, one that ends in a sync byte, and none at all. -/
theorem witness_GarbageThenTwoFramesDeliversTheTwo :
    (noCandidateReachesPast Config.default [0x00#8, 0xC8#8, 0x01#8] linkFrame ∧
      noCandidateReachesPast Config.default [0xC8#8] linkFrame ∧ noCandidateReachesPast Config.default [] linkFrame) ∧
    noChanceFrame Config.default [0x00#8, 0xC8#8, 0x01#8] ∧
    (Config.default.fits linkBytes = true ∧ Config.default.fits battBytes = true) := by
  refine ⟨by unfold noCandidateReachesPast; decide +kernel, ?_, by decide⟩
  have h : ∀ i < [0x00#8, 0xC8#8, 0x01#8].length,
      (decode Config.default ([0x00#8, 0xC8#8, 0x01#8].drop i)).toOption = none := by decide +kernel
  intro i hi r hr
  have := h i hi
  rw [hr] at this
  simp [Except.toOption] at this

theorem witness_FrameRowIsPushingItsBytes :
    encode State.reset.config (.linkStats linkBytes) = some linkFrame ∧ State.reset.block.buf = [] := by decide +kernel

theorem witness_WireDrainsAsPushes :
    (pending (.wire (0x00#8 :: battFrame)) [0xC8#8]).config.legal = true ∧
    (pending (.wire (0x00#8 :: battFrame)) [0xC8#8]).host =
      [{ config := (pending (.wire (0x00#8 :: battFrame)) [0xC8#8]).config, item := .wire (0x00#8 :: battFrame) }] := by
  decide

theorem witness_CrcIsLinear : (linkBytes).length = (List.replicate 10 0xFF#8).length := by decide

/-- Error patterns over the valid bytes of the section 2.2 frame: one bit; a burst of 8 bits; two bits 93 apart and two
bits 92 apart. -/
theorem witness_CrcErrors :
    crc8 ([0x14#8] ++ linkBytes ++ [0xBA#8]) = 0x00#8 ∧
    (([0x00#8, 0x01#8] ++ zeros 10).length = ([0x14#8] ++ linkBytes ++ [0xBA#8]).length ∧
      weight ([0x00#8, 0x01#8] ++ zeros 10) % 2 = 1) ∧
    beU (zeros 11 ++ [0xFF#8]) 0 12 = 0xFF * 2 ^ 0 ∧ beU ([0xFF#8] ++ zeros 11) 0 12 = 0xFF * 2 ^ 88 ∧
    beU ([0x20#8] ++ zeros 10 ++ [0x01#8]) 0 12 = 2 ^ 93 + 2 ^ 0 ∧
    beU ([0x10#8] ++ zeros 10 ++ [0x01#8]) 0 12 = 2 ^ 92 + 2 ^ 0 := by decide +kernel

theorem witness_PackPlacesEveryBit :
    (∀ v ∈ chan 2047, 0 ≤ v ∧ v ≤ 2047) ∧ ¬ (∀ v ∈ chan 2048, 0 ≤ v ∧ v ≤ 2047) ∧
    ¬ (∀ v ∈ chan (-1), 0 ≤ v ∧ v ≤ 2047) := by decide

/-- Both sides of each encoder's limits. -/
theorem witness_EncodeLimits :
    ((0x00#8 ∉ List.replicate 59 0x41#8) ∧ (List.replicate 59 0x41#8).length + 3 ≤ State.reset.config.lenMax) ∧
    ¬ ((0x00#8 ∉ List.replicate 60 0x41#8) ∧ (List.replicate 60 0x41#8).length + 3 ≤ State.reset.config.lenMax) ∧
    (zeros 60).length + 2 ≤ State.reset.config.lenMax ∧ ¬ (zeros 61).length + 2 ≤ State.reset.config.lenMax := by
  decide +kernel

/-- Records at the ends of their fields' widths, and one past an end, for EncodeLinkStats, EncodeGps, EncodeBattery and
EncodeAttitude. -/
theorem witness_EncodeFields :
    Record.inWidths 62 (.linkStats ⟨0, 255, 255, -128, 0, 255, 0, 255, 0, 127⟩) = true ∧
    Record.inWidths 62 (.linkStats ⟨0, 255, 255, -129, 0, 255, 0, 255, 0, 127⟩) = false ∧
    Record.inWidths 62 (.gps ⟨-2147483648, 2147483647, 0, 65535, 65535, 255⟩) = true ∧
    Record.inWidths 62 (.gps ⟨-2147483648, 2147483648, 0, 65535, 65535, 255⟩) = false ∧
    Record.inWidths 62 (.battery ⟨65535, 0, 16777215, 255⟩) = true ∧
    Record.inWidths 62 (.battery ⟨65536, 0, 16777215, 255⟩) = false ∧
    Record.inWidths 62 (.attitude ⟨-32768, 32767, 0⟩) = true ∧
    Record.inWidths 62 (.attitude ⟨-32768, 32768, 0⟩) = false := by decide

/-- Both ends of a grid, and one raw value past each end, for a negative scale, an offset and a signed width. -/
theorem witness_PhysicalValueEncodableExactlyOnGrid :
    LinkStats.fields.upRssi1.ofPhysical (-255) = some 255 ∧ LinkStats.fields.upRssi1.ofPhysical (-256) = none ∧
    LinkStats.fields.upRssi1.ofPhysical 0 = some 0 ∧ LinkStats.fields.upRssi1.ofPhysical 1 = none ∧
    Gps.fields.alt.ofPhysical (-1000) = some 0 ∧ Gps.fields.alt.ofPhysical (-1001) = none ∧
    Attitude.fields.yaw.ofPhysical (-32768 / 10000) = some (-32768) ∧
    Attitude.fields.yaw.ofPhysical (32768 / 10000) = none ∧
    Battery.fields.voltage.ofPhysical (84 / 5) = some 168 ∧ Battery.fields.voltage.ofPhysical (337 / 20) = none := by
  decide +kernel

theorem witness_EncodingExactPhysicalValuesIsEncodingRaw :
    Record.inWidths State.reset.config.lenMax (.battery battRecord) = true ∧
    Record.present (.battery ⟨168, 123, 1500, 75⟩) =
      .battery ⟨.physical (84 / 5), .physical (123 / 10), .physical 1500, .physical 75⟩ := by decide +kernel

/-- 16.8 V is on the grid, 16.85 V is not, and neither is 6553.6 V. -/
theorem witness_VoltageOffTheGridIsRefused :
    (84 / 5 : Rat) = (168 : Int) / 10 ∧ (∀ n : Int, 0 ≤ n → n ≤ 65535 → (337 / 20 : Rat) ≠ (n : Rat) / 10) ∧
    ∀ n : Int, 0 ≤ n → n ≤ 65535 → (65536 / 10 : Rat) ≠ (n : Rat) / 10 := by
  refine ⟨by norm_num, ?_, ?_⟩
  · intro n _ _ h
    have h2 : ((337 : Int) : Rat) = ((2 * n : Int) : Rat) := by push_cast; linarith
    have := Int.cast_injective h2
    omega
  · intro n _ hn h
    have h2 : ((65536 : Int) : Rat) = ((n : Int) : Rat) := by push_cast; linarith
    have := Int.cast_injective h2
    omega

/-- An off-grid voltage beside a raw field out of range, and a physical value for an enumeration field, stand for no raw
record; each is a numeric field whose physical value gives no raw value. -/
theorem witness_VoltageOffTheGridIsRefused_any_field :
    Record.toRaw (.battery ⟨.physical (337 / 20), .raw 65536, .raw 0, .raw 0⟩) = none ∧
    (Battery.fields.voltage, Val.physical (337 / 20)) ∈
      Record.numericFields (.battery ⟨.physical (337 / 20), .raw 65536, .raw 0, .raw 0⟩) ∧
    Battery.fields.voltage.ofPhysical (337 / 20) = none ∧
    (LinkStats.fields.rfMode, Val.physical 4) ∈ Record.numericFields (.linkStats
      ⟨.raw 0, .raw 0, .raw 0, .raw 0, .raw 0, .physical 4, .raw 0, .raw 0, .raw 0, .raw 0⟩) ∧
    LinkStats.fields.rfMode.ofPhysical 4 = none := by
  decide +kernel

theorem witness_EncodeRecordCompletes :
    Instr.wellFormed State.reset.config (.encodeRecord (Record.asRaw (.linkStats linkRecord))) = true ∧
    Instr.wellFormed State.reset.config (.encodeRecord (.battery ⟨.physical (84 / 5), .raw 123, .raw 1500, .raw 75⟩)) =
      true := by decide +kernel

theorem witness_SelfGeneratedFrameIsValid :
    State.reset.config.fits (zeros 60) = true ∧ State.reset.config.legal = true ∧ State.reset.block.buf = [] := by decide

theorem witness_EncoderAndResynchronizerAreIndependent :
    (∃ t, exec (.frameEncode 0x7F#8 []) State.reset = .next t) ∧
    (∃ t, exec (.encodeRecord (.unknown 0x7F#8 [])) State.reset = .next t) ∧
    (∃ t, exec (.pushByte 0xC8#8) State.reset = .next t) := ⟨⟨_, rfl⟩, ⟨_, rfl⟩, ⟨_, rfl⟩⟩

/-- The smallest and the largest legal MAX_FRAME, and the values next to them. -/
theorem witness_ResetInitialisesTheBlock :
    (maxFrame 4).legal = true ∧ ({ Config.default with maxFrame := 255, bufCap := 255 } : Config).legal = true ∧
    (maxFrame 3).legal = false ∧ ({ Config.default with maxFrame := 256, bufCap := 256 } : Config).legal = false ∧
    ({ Config.default with bufCap := 63 } : Config).legal = false := by decide

theorem witness_ChangedConfigurationIsRefused :
    ({ State.reset with issued := maxFrame 12 } : State).issued ≠ ({ State.reset with issued := maxFrame 12 } : State).config := by
  decide

theorem witness_WellFormedInstructionsComplete :
    Instr.wellFormed State.reset.config (.pack (chan 2047)) = true ∧
    Instr.wellFormed State.reset.config (.unknown 0x7F#8 (zeros 60)) = true := by decide

/-- An instruction of each kind answers a next state. -/
theorem witness_EachInstructionWritesOnlyItsOwn :
    (∃ t, exec (.unknown 0x7F#8 []) State.reset = .next t) ∧ (∃ t, exec (.pushChunk [0xC8#8]) State.reset = .next t) ∧
    (∃ t, exec (.crc8 []) State.reset = .next t) ∧ (∃ t, exec (.frameEncode 0x7F#8 []) State.reset = .next t) ∧
    (∃ t, exec (.reset Config.default) State.reset = .next t) := ⟨⟨_, rfl⟩, ⟨_, rfl⟩, ⟨_, rfl⟩, ⟨_, rfl⟩, ⟨_, rfl⟩⟩

/-- Steps that answer a next state: a RESET to another configuration, and an operation. -/
theorem witness_StepAnswers :
    (∃ t, step (pending (.op (.reset (maxFrame 12))) []) = .next t ∧ t.config ≠ (pending (.wire []) []).config) ∧
    ∃ t, step (pending (.op .readDiag) []) = .next t := ⟨⟨_, rfl, by decide⟩, ⟨_, rfl⟩⟩

/-- The invariant holds of a state with a partial frame, an event and a transmitted frame. -/
theorem witness_StepKeepsTheInvariant :
    State.Inv { holding [0xC8#8, 0x0C#8, 0x14#8] with events := [.linkStats linkRecord], sent := [linkFrame] } :=
  ⟨by decide, by decide, by decide, by decide, by decide +kernel⟩

end Sys2Proof.Tests
end

section
/-! PROOFS. The resynchronizer's statements (40_resync.md). -/
namespace Sys2Proof.Proofs.Resync

open Sys2Proof Sys2Proof.Machine

/-- Settles O21: by `pushAll_append` the scan of `a ++ b` is the scan of `b` begun on the block that `a` leaves, so the
two transactions write that block and append their events one after the other. -/
theorem partialDeliveryInvariance : Obligations.PartialDeliveryInvariance := by
  intro s a b hissued
  refine ⟨_, _, _, exec_pushChunk (a ++ b) hissued, exec_pushChunk a hissued, exec_pushChunk b hissued, ?_⟩
  simp only [pushAll_append, Chunk.followedBy, List.append_assoc]

end Sys2Proof.Proofs.Resync
end

section
/-! PROOFS. The validator's statements (41_crc.md): what CRC8 and CRC_CHECK do through `exec`, then the statements. -/
namespace Sys2Proof.Proofs.Crc

open Sys2Proof Sys2Proof.Machine

/-- CRC8 under the configuration in force (41_crc.md rule R130). -/
theorem exec_crc8 {s : State} (x : List Byte) (h : s.issued = s.config) :
    exec (.crc8 x) s = .next { s with returned := .crc (crc8 x) } := by
  simp [exec, execCrc8, underConfig, h, State.answer]

/-- CRC_CHECK under the configuration in force (41_crc.md rule R132). -/
theorem exec_crcCheck {s : State} (t : Byte) (p : List Byte) (c : Byte) (h : s.issued = s.config) :
    exec (.crcCheck t p c) s = .next { s with returned := .crcOk (crcCheck t p c) } := by
  simp [exec, execCrcCheck, underConfig, h, State.answer]

theorem crcCheck_iff (t : Byte) (p : List Byte) (c : Byte) : crcCheck t p c = true ↔ crc8 ([t] ++ p) = c :=
  beq_iff_eq

/-- Settles O29: the checksum is `crc8 ([t] ++ p)`, the very value that `crcCheck_iff` says CRC_CHECK compares with. -/
theorem computedFrameAlwaysChecks : Obligations.ComputedFrameAlwaysChecks := by
  intro s t p hissued
  have hchecks : crcCheck t p (crc8 ([t] ++ p)) = true := (crcCheck_iff t p _).mpr rfl
  refine ⟨crc8 ([t] ++ p), _, exec_crc8 ([t] ++ p) hissued, rfl, ?_⟩
  rw [exec_crcCheck t p _ hissued, hchecks]

end Sys2Proof.Proofs.Crc
end

section
/-! PROOFS. The channel statements (42_channels.md): where UNPACK and PACK put each bit, the two equations that tie the
payload's integer to the channels' sum, then the statements. -/
namespace Sys2Proof.Proofs.Channels

open Sys2Proof Sys2Proof.Machine

/-! ### UNPACK and PACK through `exec` -/

/-- UNPACK under the configuration in force (42_channels.md rule R151). -/
theorem exec_unpack {s : State} (p : Vector Byte 22) (h : s.issued = s.config) :
    exec (.unpack p) s = .next { s with returned := .channels (unpack p.toList) } := by
  simp [exec, execUnpack, underConfig, h, State.answer]

/-- PACK of channels in range under the configuration in force (42_channels.md rule R152). -/
theorem exec_pack {s : State} {ch : Vector Int 16} (h : s.issued = s.config) (hch : ∀ v ∈ ch, 0 ≤ v ∧ v ≤ 2047) :
    exec (.pack ch) s = .next { s with returned := .payload (pack ch) } := by
  simp [exec, execPack, underConfig, h, (channelsOk_iff ch).mpr hch, State.answer]

/-! ### Unpacked channels -/

theorem unpack_getElem_inRange (p : List Byte) (i : Nat) (h : i < 16) :
    0 ≤ (unpack p)[i] ∧ (unpack p)[i] ≤ 2047 := by
  rw [unpack_getElem p i h]
  omega

theorem unpack_inRange (p : List Byte) : ∀ v ∈ unpack p, 0 ≤ v ∧ v ≤ 2047 := by
  intro v hv
  obtain ⟨i, hi, rfl⟩ := Vector.mem_iff_getElem.mp hv
  exact unpack_getElem_inRange p i hi

/-- Bit j of channel i is bit 11i + j of the payload's little-endian integer. -/
theorem unpack_testBit (p : List Byte) {i j : Nat} (hi : i < 16) (hj : j < 11) :
    (unpack p)[i].toNat.testBit j = (leBits p).testBit (11 * i + j) := by
  rw [unpack_getElem p i hi, Int.toNat_natCast, Nat.testBit_mod_two_pow, Nat.testBit_shiftRight]
  simp [hj]

/-- The sum of the channels of a 22-byte payload is the payload's integer: UNPACK loses no bit. -/
theorem channelBits_unpack {p : List Byte} (hp : p.length = 22) : channelBits (unpack p).toList = leBits p := by
  refine Nat.eq_of_testBit_eq fun n => ?_
  rw [channelBits_testBit _ (by simpa using unpack_inRange p)]
  by_cases hn : n / 11 < 16
  · have hbit := unpack_testBit p hn (Nat.mod_lt n (by decide : 0 < 11))
    rw [Nat.div_add_mod] at hbit
    simpa [hn] using hbit
  · have hbyte : p.length ≤ n / 8 := by omega
    rw [leBits_testBit, List.getD_eq_default _ _ hbyte, List.getD_eq_default _ _ (by simpa using hn)]
    simp

/-! ### Packed channels -/

/-- Bit b of byte k is bit 8k + b of the channels' sum. -/
theorem pack_getLsbD (ch : Vector Int 16) {k b : Nat} (hk : k < 22) (hb : b < 8) :
    ((pack ch).getD k 0).getLsbD b = (channelBits ch.toList).testBit (8 * k + b) := by
  have hbyte : (pack ch).getD k 0 = BitVec.ofNat 8 (channelBits ch.toList >>> (8 * k)) := by simp [pack, hk]
  rw [hbyte, BitVec.getLsbD_ofNat, Nat.testBit_shiftRight]
  simp [hb]

/-- The integer of a packed payload is the sum of its channels: the 16 channels fill exactly 22 bytes. -/
theorem leBits_pack {ch : Vector Int 16} (hch : ∀ v ∈ ch, 0 ≤ v ∧ v ≤ 2047) :
    leBits (pack ch) = channelBits ch.toList := by
  refine Nat.eq_of_testBit_eq fun n => ?_
  rw [leBits_testBit]
  by_cases hn : n / 8 < 22
  · rw [pack_getLsbD ch hn (Nat.mod_lt n (by decide)), Nat.div_add_mod]
  · have hchannel : 16 ≤ n / 11 := by omega
    rw [channelBits_testBit _ (by simpa using hch), List.getD_eq_default _ _ (by simpa using hn),
      List.getD_eq_default _ _ (by simpa using hchannel)]
    simp

/-! ### Both integers determine what they were built from -/

theorem leBits_injective : ∀ {p q : List Byte}, p.length = q.length → leBits p = leBits q → p = q
  | [], [], _, _ => rfl
  | a :: p, b :: q, hlen, hbits => by
    simp only [leBits] at hbits
    have ha := a.isLt
    have hb := b.isLt
    have hhead : a = b := BitVec.eq_of_toNat_eq (by omega)
    have htail : p = q := leBits_injective (by simpa using hlen) (by omega)
    rw [hhead, htail]

theorem channelBits_injective : ∀ {l m : List Int}, l.length = m.length → (∀ v ∈ l, 0 ≤ v ∧ v ≤ 2047) →
    (∀ v ∈ m, 0 ≤ v ∧ v ≤ 2047) → channelBits l = channelBits m → l = m
  | [], [], _, _, _, _ => rfl
  | v :: l, w :: m, hlen, hl, hm, hbits => by
    simp only [channelBits] at hbits
    obtain ⟨hv, hl⟩ := List.forall_mem_cons.mp hl
    obtain ⟨hw, hm⟩ := List.forall_mem_cons.mp hm
    have hhead : v = w := by omega
    have htail : l = m := channelBits_injective (by simpa using hlen) hl hm (by omega)
    rw [hhead, htail]

/-! ### The round trips (42_channels.md rule R154) -/

theorem unpack_pack {ch : Vector Int 16} (hch : ∀ v ∈ ch, 0 ≤ v ∧ v ≤ 2047) : unpack (pack ch) = ch := by
  have hbits : channelBits (unpack (pack ch)).toList = channelBits ch.toList := by
    rw [channelBits_unpack (pack_length ch), leBits_pack hch]
  exact Vector.toList_inj.mp
    (channelBits_injective (by simp) (by simpa using unpack_inRange (pack ch)) (by simpa using hch) hbits)

theorem pack_unpack {p : List Byte} (hp : p.length = 22) : pack (unpack p) = p := by
  have hbits : leBits (pack (unpack p)) = leBits p := by
    rw [leBits_pack (unpack_inRange p), channelBits_unpack hp]
  exact leBits_injective (by rw [pack_length, hp]) hbits

/-! ### The statements -/

/-- Settles O34: by `unpack_testBit` bit j of channel i is bit 11i + j of the payload's integer, which
by `leBits_testBit` stands in byte (11i + j) div 8. -/
theorem unpackPlacesEveryBit : Obligations.UnpackPlacesEveryBit := by
  intro s p hissued
  refine ⟨unpack p.toList, exec_unpack p hissued, fun i j hi => ?_⟩
  obtain ⟨hlo, hhi⟩ := unpack_getElem_inRange p.toList i hi
  exact ⟨hlo, hhi, fun hj => (unpack_testBit p.toList hi hj).trans (leBits_testBit _ _)⟩

/-- Settles O36: PACK and UNPACK keep the same integer (`leBits_pack`, `channelBits_unpack`), which determines both the
channels and the payload; so `unpack_pack` and `pack_unpack` say each operation undoes the other. -/
theorem packUnpackRoundTrip : Obligations.PackUnpackRoundTrip := by
  constructor
  · intro s ch hissued hch
    refine ⟨⟨⟨pack ch⟩, pack_length ch⟩, exec_pack hissued hch, ?_⟩
    rw [exec_unpack _ hissued]
    simp only [Vector.toList_mk, unpack_pack hch]
  · intro s p hissued
    refine ⟨unpack p.toList, exec_unpack p hissued, ?_⟩
    rw [exec_pack hissued (unpack_inRange _), pack_unpack p.length_toList]

end Sys2Proof.Proofs.Channels
end

section
/-! PROOFS. The frame encoder's statements (44_frame_encoder.md): which frame a request transmits, and that it is decided
by the request and the configuration alone; then the statements. -/
namespace Sys2Proof.Proofs.FrameEncoder

open Sys2Proof Sys2Proof.Machine

/-- Under configuration `c` the request `i` transmits and returns the frame `f`, and writes nothing else, whatever the
block holds (44_frame_encoder.md rules R230, R233). -/
def Transmits (c : Config) (i : Instr) (f : List Byte) : Prop :=
  ∀ s : State, s.config = c → s.issued = c → exec i s = .next { s with sent := s.sent ++ [f], returned := .frame f }

/-! ### The encoder and DECODE through `exec` -/

/-- FRAME_ENCODE under the configuration in force (44_frame_encoder.md rule R230). -/
theorem exec_frameEncode {s : State} (t : Byte) (p : List Byte) (h : s.issued = s.config) :
    exec (.frameEncode t p) s = sendFrame t p s := by
  simp [exec, execFrameEncode, underConfig, h]

/-- DECODE under the configuration in force (43_payload_codec.md rule R170). -/
theorem exec_decode {s : State} (t : Byte) (p : List Byte) (h : s.issued = s.config) :
    exec (.decode t p) s = .next { s with returned := .record (decodePayload s.config t p) } := by
  simp [exec, execDecode, underConfig, h, State.answer]

/-! ### The frame a request transmits -/

theorem fits_of_sendFrame {s s' : State} {t : Byte} {p : List Byte} (h : sendFrame t p s = .next s') :
    s.config.fits p = true := by
  rw [sendFrame_eq] at h
  split at h
  · assumption
  · cases h

theorem frameEncode_transmits {c : Config} (t : Byte) {p : List Byte} (hfits : c.fits p = true) :
    Transmits c (.frameEncode t p) (c.frameBytes t p) := by
  rintro s rfl hissued
  rw [exec_frameEncode t p hissued, sendFrame_eq, if_pos hfits]

theorem encodeRecord_transmits {c : Config} {r : Operand} {t : Byte} {p : List Byte}
    (henc : encodePayload c r = .ok (t, p)) (hfits : c.fits p = true) :
    Transmits c (.encodeRecord r) (c.frameBytes t p) := by
  rintro s rfl hissued
  rw [exec_encodeRecord s r hissued, henc]
  exact (sendFrame_eq t p s).trans (if_pos hfits)

theorem transmits_of_exec_frameEncode {s s' : State} {t : Byte} {p : List Byte} (hissued : s.issued = s.config)
    (h : exec (.frameEncode t p) s = .next s') : ∃ f, Transmits s.config (.frameEncode t p) f := by
  rw [exec_frameEncode t p hissued] at h
  exact ⟨_, frameEncode_transmits t (fits_of_sendFrame h)⟩

theorem transmits_of_exec_encodeRecord {s s' : State} {r : Operand} (hissued : s.issued = s.config)
    (h : exec (.encodeRecord r) s = .next s') : ∃ f, Transmits s.config (.encodeRecord r) f := by
  rw [exec_encodeRecord s r hissued] at h
  rcases henc : encodePayload s.config r with why | ⟨t, p⟩
  · rw [henc] at h
    cases h
  · rw [henc] at h
    exact ⟨_, encodeRecord_transmits henc (fits_of_sendFrame h)⟩

/-! ### The statements -/

/-- Settles O49: FRAME_ENCODE transmits `frameBytes t p`, and by `pushAll_frame` the resynchronizer takes those bytes from
an empty buffer as one valid frame, whose record is the one DECODE returns. -/
theorem selfGeneratedFrameIsValid : Obligations.SelfGeneratedFrameIsValid := by
  intro s u t p hissued hlegal hfits hconfig huissued hempty
  have hframe : pushAll u.config (s.config.frameBytes t p) u.block =
      ⟨u.block, [decodePayload s.config t p], [decodePayload s.config t p], []⟩ := by
    rw [hconfig]
    exact pushAll_frame hlegal hempty hfits
  refine ⟨s.config.frameBytes t p, _, _, decodePayload s.config t p, frameEncode_transmits t hfits s rfl hissued, rfl,
    exec_decode t p hissued, exec_pushChunk _ (huissued.trans hconfig.symm), ?_, ?_⟩
  · rw [hframe]
  · rw [hframe]

/-- Settles O50: a request that completes `Transmits` one frame in every state of that configuration, so also after a push
and after itself; and a push reads only the block, the configuration and the events, which the request leaves. -/
theorem encoderAndResynchronizerAreIndependent : Obligations.EncoderAndResynchronizerAreIndependent := by
  intro s s' u i b hissued hrequest hencode hpush
  obtain ⟨f, hf⟩ : ∃ f, Transmits s.config i f := by
    obtain ⟨t, p, rfl⟩ | ⟨r, rfl⟩ := hrequest
    · exact transmits_of_exec_frameEncode hissued hencode
    · exact transmits_of_exec_encodeRecord hissued hencode
  rw [hf s rfl hissued] at hencode
  cases hencode
  rw [exec_pushByte b hissued] at hpush
  cases hpush
  refine ⟨⟨rfl, rfl, rfl⟩, ⟨_, exec_pushByte b (by exact hissued), rfl, rfl, rfl⟩, ⟨_, hf _ rfl hissued, rfl, rfl⟩,
    ⟨_, f, hf _ rfl hissued, rfl, rfl⟩⟩

end Sys2Proof.Proofs.FrameEncoder
end

section
/-! PROOFS. The frame format read both ways (30_encoding.md): which payloads make a row well formed, the decoder on a
whole candidate, the candidate behind every accepted frame; then the statements. -/
namespace Sys2Proof.Proofs.FrameFormat

open Sys2Proof Sys2Proof.Machine

/-! ### Well-formed frame rows -/

theorem rowTakes_of_rowOf {c : Config} {t : Byte} {p : List Byte} {k : KnownType} (h : c.rowOf t p = some k) :
    t = k.code ∧ c.rowTakes t p k = true := by
  have htakes : c.rowTakes t p k = true := List.find?_some h
  have hcode := htakes
  simp only [Config.rowTakes, Bool.and_eq_true, beq_iff_eq] at hcode
  exact ⟨hcode.1.1, htakes⟩

/-- The row the dispatch map gives a frame is well formed exactly when the payload fits a frame. -/
theorem wellFormed_frameRow (c : Config) (t : Byte) (p : List Byte) :
    (c.frameRow t p).wellFormed c = c.fits p := by
  unfold Config.frameRow
  rcases hrow : c.rowOf t p with _ | k
  · simp [Instr.wellFormed, hrow]
  · obtain ⟨rfl, htakes⟩ := rowTakes_of_rowOf hrow
    cases k <;> simp only [KnownType.code] at htakes <;> simp [Instr.wellFormed, htakes]

/-- A well-formed frame row is the row the dispatch map gives its type and payload. -/
theorem frameRow_of_wellFormed {c : Config} {i : Instr} {t : Byte} {p : List Byte} (hi : i.typeAndPayload = some (t, p))
    (hwf : i.wellFormed c = true) : c.frameRow t p = i ∧ c.fits p = true := by
  cases i <;> simp only [Instr.typeAndPayload, Option.some.injEq, Prod.mk.injEq, reduceCtorEq] at hi <;>
    obtain ⟨rfl, rfl⟩ := hi <;> simp only [Instr.wellFormed, Bool.and_eq_true, Option.isNone_iff_eq_none] at hwf <;>
    obtain ⟨hrow, hfits⟩ := hwf
  case unknown => exact ⟨by simp [Config.frameRow, hrow], hfits⟩
  all_goals exact ⟨by simp [Config.frameRow, rowOf_of_takes hrow], hfits⟩

theorem encode_of_fits {c : Config} {i : Instr} {t : Byte} {p : List Byte} (hi : i.typeAndPayload = some (t, p))
    (hfits : c.fits p = true) : encode c i = some (c.frameBytes t p) := by
  simp [encode, hi, hfits]

/-! ### The decoder -/

/-- The decoder on a whole candidate: its CRC decides. -/
theorem decode_candidate {c : Config} {len : Byte} (t : Byte) {p : List Byte} (crc : Byte) (rest : List Byte)
    (hl : len.toNat ≤ c.lenMax) (hp : p.length + 2 = len.toNat) :
    decode c (c.syncByte :: len :: t :: (p ++ crc :: rest)) =
      if crcCheck t p crc then .ok (c.frameRow t p, rest) else .error .crcMismatch := by
  have hok : c.lengthOk (p.length + 2) = true := (lengthOk_iff _ _).mpr ⟨by omega, by omega⟩
  have hwhole : ¬ (t :: (p ++ crc :: rest)).length < p.length + 2 := by simp
  have hrest : List.drop (p.length + 2) (t :: (p ++ crc :: rest)) = rest := by simp [List.drop_append]
  simp only [decode, bne_self_eq_false, Bool.false_eq_true, if_false, ← hp, hok, Bool.not_true, hwhole, hrest]
  simp

theorem decode_frameBytes {c : Config} (t : Byte) {p : List Byte} (rest : List Byte) (hfits : c.fits p = true) :
    decode c (c.frameBytes t p ++ rest) = .ok (c.frameRow t p, rest) := by
  have hlen := frameLength_toNat hfits
  have hcand := decode_candidate t (crc8 (t :: p)) rest (by rw [hlen]; exact (fits_iff c p).mp hfits) hlen.symm
  simpa [frameBytes_eq, crcCheck] using hcand

/-- A body of `n + 2` bytes or more is a type byte, `n` payload bytes, a crc byte and a rest. -/
theorem body_split {body : List Byte} {n : Nat} (h : n + 2 ≤ body.length) :
    ∃ t p crc rest, body = t :: (p ++ crc :: rest) ∧ p.length = n := by
  rcases body with _ | ⟨t, tail⟩
  · simp at h
  · simp only [List.length_cons] at h
    have hn : n < tail.length := by omega
    exact ⟨t, tail.take n, tail[n], tail.drop (n + 1), by rw [List.getElem_cons_drop, List.take_append_drop],
      List.length_take_of_le (by omega)⟩

/-- Whatever the decoder accepts begins with the bytes of a frame whose payload fits, and is that frame's row. -/
theorem decode_ok {c : Config} {bytes rest : List Byte} {i : Instr} (h : decode c bytes = .ok (i, rest)) :
    ∃ t p, c.fits p = true ∧ i = c.frameRow t p ∧ bytes = c.frameBytes t p ++ rest := by
  rcases bytes with _ | ⟨s, _ | ⟨len, body⟩⟩
  · simp [decode] at h
  · simp only [decode] at h
    split at h <;> simp at h
  · by_cases hs : s = c.syncByte
    · subst hs
      by_cases hok : c.lengthOk len.toNat = true
      · obtain ⟨h2, hl⟩ := (lengthOk_iff _ _).mp hok
        by_cases hw : body.length < len.toNat
        · simp [decode, hok, hw] at h
        · obtain ⟨t, p, crc, tail, rfl, hp⟩ := body_split (n := len.toNat - 2) (body := body) (by omega)
          rw [decode_candidate t crc tail hl (by omega)] at h
          split at h
          · rename_i hcrc
            simp only [Except.ok.injEq, Prod.mk.injEq] at h
            obtain ⟨rfl, rfl⟩ := h
            have hlen : len = BitVec.ofNat 8 (p.length + 2) := by
              rw [show p.length + 2 = len.toNat by omega, BitVec.ofNat_toNat, BitVec.setWidth_eq]
            refine ⟨t, p, (fits_iff c p).mpr (by omega), rfl, ?_⟩
            simp only [crcCheck, beq_iff_eq] at hcrc
            simp [frameBytes_eq, ← hlen, ← hcrc]
          · simp at h
      · simp [decode, hok] at h
    · simp [decode, hs] at h

/-! ### The statements -/

/-- Settles O2: a well-formed row is the one the dispatch map gives its type and payload (`frameRow_of_wellFormed`), and
the decoder reads that row back from the frame (`decode_frameBytes`). -/
theorem decodeInvertsEncode : Obligations.DecodeInvertsEncode := by
  intro c i rest hwf hframe
  obtain ⟨t, p, hi⟩ := (isFrame_iff i).mp hframe
  obtain ⟨hrow, hfits⟩ := frameRow_of_wellFormed hi hwf
  exact ⟨_, encode_of_fits hi hfits, hrow ▸ decode_frameBytes t rest hfits⟩

/-- Settles O3: by `decode_ok` the accepted bytes are a frame of a payload that fits, followed by the rest. -/
theorem encodeInvertsDecode : Obligations.EncodeInvertsDecode := by
  intro c bytes i rest hdec
  obtain ⟨t, p, hfits, rfl, rfl⟩ := decode_ok hdec
  exact ⟨(wellFormed_frameRow c t p).trans hfits, isFrame_frameRow c t p, _,
    encode_of_fits (typeAndPayload_frameRow c t p) hfits, rfl⟩

/-- Settles O1: each clause is a closed run of the decoder. -/
theorem specFramesDecodeToTheirRows : Obligations.SpecFramesDecodeToTheirRows := by
  unfold Obligations.SpecFramesDecodeToTheirRows
  decide +kernel

end Sys2Proof.Proofs.FrameFormat
end

section
/-! PROOFS. DECODE and ENCODE against each other (43_payload_codec.md): which record a type and payload decode to, said
once; its fields within their widths; the bytes of a field read back; then the statements. -/
namespace Sys2Proof.Proofs.RoundTrip

open Sys2Proof Sys2Proof.Machine Sys2Proof.Proofs.Channels Sys2Proof.Proofs.FrameEncoder

/-! ### The record a payload decodes to -/

/-- The record of a type and payload, by the row of the dispatch map that takes them (30_encoding.md rule R74). -/
inductive DecodesTo (c : Config) (t : Byte) (p : List Byte) : Event → Prop where
  | channels   (ht : t = 0x16#8) (hp : p.length = 22) : DecodesTo c t p (.channels (unpack p))
  | linkStats  (ht : t = 0x14#8) (hp : p.length = 10) : DecodesTo c t p (.linkStats (decLink p))
  | gps        (ht : t = 0x02#8) (hp : p.length = 15) : DecodesTo c t p (.gps (decGps p))
  | battery    (ht : t = 0x08#8) (hp : p.length = 8) : DecodesTo c t p (.battery (decBatt p))
  | attitude   (ht : t = 0x1E#8) (hp : p.length = 6) : DecodesTo c t p (.attitude (decAtt p))
  | flightMode (label : List Byte) (ht : t = 0x21#8) (hp : p = label ++ [0x00#8]) (hl : ∀ b ∈ label, b ≠ 0x00#8) :
      DecodesTo c t p (.flightMode label)
  | unknown    : DecodesTo c t p (.unknown t p)

theorem decodePayload_decodesTo (c : Config) (t : Byte) (p : List Byte) : DecodesTo c t p (decodePayload c t p) := by
  unfold decodePayload
  split_ifs with h1 h2 h3 h4 h5 h6
  · simp at h1; exact .channels h1.1.1 h1.2
  · simp at h2; exact .linkStats h2.1.1 h2.2
  · simp at h3; exact .gps h3.1.1 h3.2
  · simp at h4; exact .battery h4.1.1 h4.2
  · simp at h5; exact .attitude h5.1.1 h5.2
  · simp only [Bool.and_eq_true, beq_iff_eq] at h6
    obtain ⟨label, rfl, hl⟩ := (fmCanon_iff p).mp h6.2
    rw [decFm, List.dropLast_concat]
    exact .flightMode label h6.1.1 rfl hl
  · exact .unknown

/-! ### Decoded fields are within their widths -/

theorem beU_le {p : List Byte} {o n : Nat} (h : o + n ≤ p.length) : (beU p o n : Int) ≤ 2 ^ (8 * n) - 1 := by
  have hlt := beU_lt p o n h
  have hcast : ((2 ^ (8 * n) : Nat) : Int) = 2 ^ (8 * n) := by push_cast; rfl
  omega

theorem holds_beU {f : Field} {p : List Byte} {o n : Nat} (h : o + n ≤ p.length) (hlo : f.width.lo = 0)
    (hhi : f.width.hi = 2 ^ (8 * n) - 1) : f.holds (beU p o n) = true := by
  rw [holds_iff, hlo, hhi]
  exact ⟨Int.natCast_nonneg _, beU_le h⟩

theorem holds_beS {f : Field} {p : List Byte} {o n : Nat} (h : o + n ≤ p.length) (hn : 0 < n)
    (hlo : f.width.lo = -2 ^ (8 * n - 1)) (hhi : f.width.hi = 2 ^ (8 * n - 1) - 1) : f.holds (beS p o n) = true := by
  obtain ⟨hl, hh⟩ := beS_bounds p o n hn h
  rw [holds_iff, hlo, hhi]
  exact ⟨hl, by omega⟩

theorem decLink_inWidths {p : List Byte} (hp : p.length = 10) :
    (LinkStats.zip Field.holds LinkStats.fields (decLink p)).all = true := by
  simp only [LinkStats.all, LinkStats.zip, decLink, Bool.and_eq_true]
  refine ⟨⟨⟨⟨⟨⟨⟨⟨⟨holds_beU ?_ rfl rfl, holds_beU ?_ rfl rfl⟩, holds_beU ?_ rfl rfl⟩, holds_beS ?_ one_pos rfl rfl⟩,
    holds_beU ?_ rfl rfl⟩, holds_beU ?_ rfl rfl⟩, holds_beU ?_ rfl rfl⟩, holds_beU ?_ rfl rfl⟩, holds_beU ?_ rfl rfl⟩,
    holds_beS ?_ one_pos rfl rfl⟩ <;> omega

theorem decGps_inWidths {p : List Byte} (hp : p.length = 15) :
    (Gps.zip Field.holds Gps.fields (decGps p)).all = true := by
  simp only [Gps.all, Gps.zip, decGps, Bool.and_eq_true]
  refine ⟨⟨⟨⟨⟨holds_beS ?_ four_pos rfl rfl, holds_beS ?_ four_pos rfl rfl⟩, holds_beU ?_ rfl rfl⟩,
    holds_beU ?_ rfl rfl⟩, holds_beU ?_ rfl rfl⟩, holds_beU ?_ rfl rfl⟩ <;> omega

theorem decBatt_inWidths {p : List Byte} (hp : p.length = 8) :
    (Battery.zip Field.holds Battery.fields (decBatt p)).all = true := by
  simp only [Battery.all, Battery.zip, decBatt, Bool.and_eq_true]
  refine ⟨⟨⟨holds_beU ?_ rfl rfl, holds_beU ?_ rfl rfl⟩, holds_beU ?_ rfl rfl⟩, holds_beU ?_ rfl rfl⟩ <;> omega

theorem decAtt_inWidths {p : List Byte} (hp : p.length = 6) :
    (Attitude.zip Field.holds Attitude.fields (decAtt p)).all = true := by
  simp only [Attitude.all, Attitude.zip, decAtt, Bool.and_eq_true]
  refine ⟨⟨holds_beS ?_ two_pos rfl rfl, holds_beS ?_ two_pos rfl rfl⟩, holds_beS ?_ two_pos rfl rfl⟩ <;> omega

/-- A decoded record is within its widths when its payload fits a frame (10_state.md rule R33). -/
theorem DecodesTo.inWidths {c : Config} {t : Byte} {p : List Byte} {e : Event} (h : DecodesTo c t p e)
    (hfits : c.fits p = true) : Record.inWidths c.lenMax e = true := by
  rw [fits_iff] at hfits
  cases h with
  | channels _ _ => exact (channelsOk_iff _).mpr (unpack_inRange p)
  | linkStats _ hp => exact decLink_inWidths hp
  | gps _ hp => exact decGps_inWidths hp
  | battery _ hp => exact decBatt_inWidths hp
  | attitude _ hp => exact decAtt_inWidths hp
  | flightMode label _ hp hl =>
    rw [hp, List.length_append, List.length_singleton] at hfits
    exact (labelOk_iff _ _).mpr ⟨fun hzero => hl _ hzero rfl, hfits⟩
  | unknown => simpa [Record.inWidths] using hfits

theorem decodePayload_inWidths {c : Config} (t : Byte) {p : List Byte} (hfits : c.fits p = true) :
    Record.inWidths c.lenMax (decodePayload c t p) = true :=
  (decodePayload_decodesTo c t p).inWidths hfits

/-! ### The bytes of a field, read and written back -/

/-- Bytes as one unsigned big-endian integer. -/
theorem beU_whole (l : List Byte) : beU l 0 l.length = l.foldl (fun v b => v * 256 + b.toNat) 0 := by simp [beU]

theorem beU_append (l : List Byte) (b : Byte) :
    beU (l ++ [b]) 0 (l ++ [b]).length = beU l 0 l.length * 256 + b.toNat := by
  rw [beU_whole, beU_whole, List.foldl_append]
  rfl

theorem bytesBE_append (v : Nat) (b : Byte) (n : Nat) : bytesBE (v * 256 + b.toNat) (n + 1) = bytesBE v n ++ [b] := by
  induction n with
  | zero =>
    have hb : BitVec.ofNat 8 (v * 256 + b.toNat) = b := BitVec.eq_of_toNat_eq (by simp; omega)
    simp [bytesBE, hb]
  | succ n ih =>
    have hshift : (v * 256 + b.toNat) >>> (8 * (n + 1)) = v >>> (8 * n) := by
      have hb := b.isLt
      rw [show 8 * (n + 1) = 8 + 8 * n by ring, Nat.shiftRight_add, Nat.shiftRight_eq_div_pow _ 8,
        show (v * 256 + b.toNat) / 2 ^ 8 = v by omega]
    rw [bytesBE, ih, hshift, bytesBE, List.cons_append]

theorem bytesBE_beU (l : List Byte) : bytesBE (beU l 0 l.length) l.length = l := by
  induction l using List.reverseRecOn with
  | nil => rfl
  | append_singleton l b ih =>
    rw [beU_append, List.length_append, List.length_singleton, bytesBE_append, ih]

/-- A signed field is its unsigned reading, modulo 2^(8n). -/
theorem beS_emod {p : List Byte} {o n : Nat} (h : o + n ≤ p.length) :
    beS p o n % 2 ^ (8 * n) = (beU p o n : Int) := by
  have hlt := beU_le h
  have hrange : (beU p o n : Int) % 2 ^ (8 * n) = (beU p o n : Int) :=
    Int.emod_eq_of_lt (Int.natCast_nonneg _) (by omega)
  unfold beS
  split
  · rw [Int.sub_emod_right, hrange]
  · exact hrange

/-- Writing back an unsigned field gives the bytes it was read from. -/
theorem putBE_beU {p : List Byte} {o n : Nat} (h : o + n ≤ p.length) : putBE (beU p o n) n = (p.drop o).take n := by
  have hback := bytesBE_beU ((p.drop o).take n)
  rw [List.length_take_of_le (by simp; omega), show beU ((p.drop o).take n) 0 n = beU p o n by
    simp [beU, List.take_take]] at hback
  have hlt := beU_le h
  rw [putBE, Int.emod_eq_of_lt (Int.natCast_nonneg _) (by omega), Int.toNat_natCast, hback]

/-- Writing back a signed field gives the bytes it was read from. -/
theorem putBE_beS {p : List Byte} {o n : Nat} (h : o + n ≤ p.length) : putBE (beS p o n) n = (p.drop o).take n := by
  rw [← putBE_beU h, putBE, putBE, beS_emod h, Int.emod_eq_of_lt (Int.natCast_nonneg _) (by have := beU_le h; omega)]

/-- Two neighbouring slices are one slice. -/
theorem slice_append (p : List Byte) {o o' : Nat} (n m : Nat) (h : o + n = o') :
    (p.drop o).take n ++ (p.drop o').take m = (p.drop o).take (n + m) := by
  rw [List.take_add, List.drop_drop, h]

/-- The one slice that covers a payload is the payload. -/
theorem slice_whole {p : List Byte} {n : Nat} (h : p.length = n) : (p.drop 0).take n = p :=
  List.take_of_length_le (Nat.le_of_eq h)

/-! ### Encoding a decoded record -/

theorem encLink_decLink {p : List Byte} (hp : p.length = 10) : encLink (decLink p) = .ok p := by
  rw [encLink, decLink_inWidths hp, orRefuse, if_pos rfl, decLink]
  simp only [putBE_beU, putBE_beS, hp, slice_append, slice_whole, Nat.reduceAdd, Nat.reduceLeDiff]

theorem encGps_decGps {p : List Byte} (hp : p.length = 15) : encGps (decGps p) = .ok p := by
  rw [encGps, decGps_inWidths hp, orRefuse, if_pos rfl, decGps]
  simp only [putBE_beU, putBE_beS, hp, slice_append, slice_whole, Nat.reduceAdd, Nat.reduceLeDiff]

theorem encBatt_decBatt {p : List Byte} (hp : p.length = 8) : encBatt (decBatt p) = .ok p := by
  rw [encBatt, decBatt_inWidths hp, orRefuse, if_pos rfl, decBatt]
  simp only [putBE_beU, hp, slice_append, slice_whole, Nat.reduceAdd, Nat.reduceLeDiff]

theorem encAtt_decAtt {p : List Byte} (hp : p.length = 6) : encAtt (decAtt p) = .ok p := by
  rw [encAtt, decAtt_inWidths hp, orRefuse, if_pos rfl, decAtt]
  simp only [putBE_beS, hp, slice_append, slice_whole, Nat.reduceAdd, Nat.reduceLeDiff]

/-- Encoding a decoded record gives back its type and payload (43_payload_codec.md rule R205). -/
theorem DecodesTo.encodeRaw {c : Config} {t : Byte} {p : List Byte} {e : Event} (h : DecodesTo c t p e)
    (hfits : c.fits p = true) : encodeRaw c e = .ok (t, p) := by
  have hw := h.inWidths hfits
  cases h with
  | channels ht hp =>
    have hok : channelsOk (unpack p) = true := hw
    simp [Machine.encodeRaw, encChannels, orRefuse, hok, pack_unpack hp, ht, Except.map]
  | linkStats ht hp => rw [Machine.encodeRaw, encLink_decLink hp, ht]; rfl
  | gps ht hp => rw [Machine.encodeRaw, encGps_decGps hp, ht]; rfl
  | battery ht hp => rw [Machine.encodeRaw, encBatt_decBatt hp, ht]; rfl
  | attitude ht hp => rw [Machine.encodeRaw, encAtt_decAtt hp, ht]; rfl
  | flightMode label ht hp _ =>
    have hok : labelOk c.lenMax label = true := hw
    simp [Machine.encodeRaw, encFm, orRefuse, hok, ht, hp, Except.map]
  | unknown => simp [Machine.encodeRaw, encUnk, orRefuse, hfits, Except.map]

/-- ENCODE of a record of raw fields is its per-type encoder. -/
theorem encodePayload_asRaw (c : Config) (e : Event) : encodePayload c e.asRaw = encodeRaw c e := by
  simp [encodePayload]

/-! ### The statements -/

/-- Settles O14: DECODE returns `decodePayload`, whose record is within its widths by `decodePayload_inWidths`. -/
theorem decodedRecordsAreWithinTheirWidths : Obligations.DecodedRecordsAreWithinTheirWidths := by
  intro s t p hissued hfits
  exact ⟨_, exec_decode t p hissued, decodePayload_inWidths t hfits⟩

/-- Settles O42: by `DecodesTo.encodeRaw` ENCODE of the decoded record returns the very type and payload, so DECODE of
what ENCODE returned is the DECODE before it. -/
theorem encodeDecodeRoundTrip : Obligations.EncodeDecodeRoundTrip := by
  intro s t p hissued hfits
  have hdecode := exec_decode t p hissued
  have hencode : exec (.encode (Record.asRaw (decodePayload s.config t p))) s =
      .next { s with returned := .typeAndPayload t p } := by
    rw [exec_encode _ _ hissued, encodePayload_asRaw, (decodePayload_decodesTo s.config t p).encodeRaw hfits]
  refine ⟨_, hdecode, hencode, fun t' p' hencode' => ?_⟩
  have hsame : (t, p) = (t', p') := by simpa using hencode.symm.trans hencode'
  cases hsame
  exact hdecode

end Sys2Proof.Proofs.RoundTrip
end

section
/-! PROOFS. The resynchronizer on frames, garbage and streams (40_resync.md): PUSH_BYTE and PUSH_CHUNK from a quiescent
buffer, a frame row as the pushes of its bytes, garbage before a frame, and the drain of a stretch of stream. -/
namespace Sys2Proof.Proofs.Stream

open Sys2Proof Sys2Proof.Machine Sys2Proof.Proofs.FrameFormat Sys2Proof.Proofs.RoundTrip

/-! ### One byte -/

theorem needMore_iff (k : Block) : k.needMore = true ↔ k.buf ≠ [] := by
  simp [Block.needMore, List.length_pos_iff]

/-- The state PUSH_BYTE leaves (40_resync.md rule R100). -/
def afterPush (b : Byte) (s : State) : State :=
  { s with
    block    := (push s.config b s.block).block
    events   := s.events ++ (push s.config b s.block).emitted
    returned := .pushStatus (pushStatus (push s.config b s.block).event (push s.config b s.block).diag
      (push s.config b s.block).block) }

theorem exec_pushByte_afterPush {s : State} (b : Byte) (h : s.issued = s.config) :
    exec (.pushByte b) s = .next (afterPush b s) :=
  exec_pushByte b h

@[simp] theorem afterPush_block (b : Byte) (s : State) : (afterPush b s).block = (push s.config b s.block).block := rfl
@[simp] theorem afterPush_config (b : Byte) (s : State) : (afterPush b s).config = s.config := rfl
@[simp] theorem afterPush_issued (b : Byte) (s : State) : (afterPush b s).issued = s.issued := rfl
@[simp] theorem afterPush_status (b : Byte) (s : State) :
    (afterPush b s).status = some (pushStatus (push s.config b s.block).event (push s.config b s.block).diag
      (push s.config b s.block).block) := rfl

/-- Settles O15: one `push_` lemma for each clause. -/
theorem pushByteFromEachQuiescentShape : Obligations.PushByteFromEachQuiescentShape := by
  intro s b hissued hlegal
  rw [exec_pushByte b hissued]
  refine ⟨fun hk => ?_, fun hk hlen => ?_, fun hk h2 hl => ?_, fun len body hk hl hshort => ?_,
    fun len t p hk hl hp hcrc => ?_, fun len t p hk hl hp hcrc => ?_⟩
  · rw [push_idle b hlegal hk]
    by_cases hb : b = s.config.syncByte <;> simp [hb, pushStatus, Scan.event, Block.needMore]
  · rw [push_malformed b hlegal hk hlen]
    by_cases hb : b = s.config.syncByte <;> simp [hb, pushStatus, Scan.event, Block.needMore]
  · rw [push_length b hlegal hk h2 hl]
    simp [pushStatus, Scan.event, Block.needMore]
  · rw [push_content b hlegal hk hl hshort]
    simp [pushStatus, Scan.event, Block.needMore]
  · have hok : crcCheck t p b = true := beq_iff_eq.mpr hcrc
    rw [push_last b hlegal hk hl hp, if_pos hok]
    simp [pushStatus, Scan.event, Block.needMore]
  · have hbad : ¬ crcCheck t p b = true := fun h => hcrc (beq_iff_eq.mp h)
    rw [push_last b hlegal hk hl hp, if_neg hbad]
    simp [pushStatus, Scan.event, Block.needMore]

/-- Settles O16: the scan ends quiescent whatever it began with (`push_quiescent`), and `exec_pushByte` names all it
writes. -/
theorem pushByteAlwaysCompletesQuiescent : Obligations.PushByteAlwaysCompletesQuiescent := by
  intro s b hissued
  exact ⟨_, _, exec_pushByte b hissued, push_quiescent s.config b s.block, rfl, rfl, needMore_iff _, rfl, rfl, rfl, rfl,
    List.prefix_append _ _⟩

theorem or_some_eq_ite (d : Diag) (o : Option Diag) [Decidable (o = none)] :
    o.or (some d) = if o = none then some d else o := by
  cases o <;> simp

/-- Settles O17: `push_full` says what the guard makes of the push. -/
theorem pushIntoFullBufferDropsTheOldest : Obligations.PushIntoFullBufferDropsTheOldest := by
  intro s b hissued hfull hcap
  have hpush := push_full b hfull hcap
  refine ⟨_, _, _, _, exec_pushByte b hissued, exec_pushByte b (by exact hissued), ?_, ?_, rfl, rfl, ?_, ?_, ?_⟩
  · simp only [hpush]
  · simp only [hpush]
  · simp only [hpush, pushStatus, Scan.event]
  · simp only [hpush, pushStatus]
  · exact (congrArg Scan.diag hpush).trans (or_some_eq_ite _ _)

/-- Settles O18: the longest quiescent shape is a frame that misses its last byte. -/
theorem quiescentBufferIsNeverFull : Obligations.QuiescentBufferIsNeverFull := by
  intro c buf hlegal hquiet
  have hbounds := lenMax_of_legal hlegal
  have hlength : buf.length ≤ c.lenMax + 1 := by
    rcases quiescent_cases hquiet with rfl | rfl | ⟨len, body, rfl, -, hl, hbody⟩
    · simp
    · simp
    · simp only [List.length_cons]
      omega
  exact ⟨hlength, by omega, by omega⟩

/-! ### A chunk -/

/-- The events and diags of the pushes of a chunk, in order, are those the chunk returns. -/
theorem pushStatuses_eq (bs : List Byte) : ∀ {s : State}, s.issued = s.config →
    (pushStatuses bs s).filterMap (fun x => x.event) = (pushAll s.config bs s.block).events ∧
      (pushStatuses bs s).filterMap (fun x => x.diag) = (pushAll s.config bs s.block).diags := by
  induction bs with
  | nil => intro s _; exact ⟨rfl, rfl⟩
  | cons b bs ih =>
    intro s hissued
    obtain ⟨hevents, hdiags⟩ := ih (s := afterPush b s) hissued
    rw [pushStatuses, exec_pushByte_afterPush b hissued, pushAll_cons]
    simp only [List.filterMap_append, hevents, hdiags, afterPush_status, afterPush_config, afterPush_block,
      Chunk.followedBy, chunkStep, List.nil_append, pushStatus]
    constructor
    · cases (push s.config b s.block).event <;> rfl
    · cases (push s.config b s.block).diag <;> rfl

/-- Settles O19: `pushEach_eq` gives the state of the pushes and `pushStatuses_eq` what they return. -/
theorem pushChunkIsEachByteInOrder : Obligations.PushChunkIsEachByteInOrder := by
  intro s bs hissued
  obtain ⟨r, heach, -⟩ := pushEach_eq bs hissued
  obtain ⟨hevents, hdiags⟩ := pushStatuses_eq bs hissued
  exact ⟨_, _, _, exec_pushChunk bs hissued, heach, rfl, hevents.symm, hdiags.symm, rfl, needMore_iff _⟩

/-- What a push from a quiescent buffer delivers is within its widths: the payload it decodes fits a frame. -/
theorem push_emits_inWidths {c : Config} {k : Block} (b : Byte) (hc : c.legal = true) (hq : quiescent c k.buf = true) :
    ∀ e ∈ (push c b k).emitted, Record.inWidths c.lenMax e = true := by
  rcases quiescent_cases hq with h | h | ⟨len, body, h, h2, hl, hb⟩
  · rw [push_idle b hc h]
    simp
  · by_cases hlen : 2 ≤ b.toNat ∧ b.toNat ≤ c.lenMax
    · rw [push_length b hc h hlen.1 hlen.2]
      simp
    · rw [push_malformed b hc h hlen]
      simp
  · by_cases hw : body.length + 1 < len.toNat
    · rw [push_content b hc h hl hw]
      simp
    · obtain ⟨t, p, rfl⟩ : ∃ t p, body = t :: p := List.exists_cons_of_length_pos (by omega)
      simp only [List.length_cons] at hb hw
      have hfits : c.fits p = true := (fits_iff c p).mpr (by omega)
      rw [push_last b hc h hl (by omega)]
      split
      · simpa using decodePayload_inWidths t hfits
      · simp

/-- What a chunk pushed from a quiescent buffer leaves and delivers (40_resync.md rules R107 to R109). -/
structure ChunkInvariant (c : Config) (k : Block) (x : Chunk) : Prop where
  quiet    : quiescent c x.block.buf = true
  overflow : x.block.overflowCnt = k.overflowCnt
  returned : x.emitted = x.events
  widths   : ∀ e ∈ x.emitted, Record.inWidths c.lenMax e = true

theorem pushAll_invariant {c : Config} (hc : c.legal = true) (bs : List Byte) : ∀ {k : Block},
    quiescent c k.buf = true → ChunkInvariant c k (pushAll c bs k) := by
  induction bs with
  | nil => intro k hq; exact ⟨hq, rfl, rfl, by simp⟩
  | cons b bs ih =>
    intro k hq
    obtain ⟨hoverflow, hevent⟩ := push_from_quiescent b hc hq
    obtain ⟨quiet, overflow, returned, widths⟩ := ih (push_quiescent c b k)
    rw [pushAll_cons]
    refine ⟨quiet, overflow.trans hoverflow, ?_, fun e he => ?_⟩
    · simp only [Chunk.followedBy, chunkStep, hevent, returned]
    · rcases List.mem_append.mp he with he | he
      · exact push_emits_inWidths b hc hq e he
      · exact widths e he

/-- Settles O20: `pushAll_invariant` at the chunk's block. -/
theorem chunkReturnsTheEventsItDelivers : Obligations.ChunkReturnsTheEventsItDelivers := by
  intro s bs hissued hlegal hquiet
  obtain ⟨quiet, overflow, returned, -⟩ := pushAll_invariant hlegal bs hquiet
  exact ⟨_, _, exec_pushChunk bs hissued, rfl, congrArg (s.events ++ ·) returned, quiet, overflow⟩

/-! ### A frame row and the pushes of its bytes -/

/-- A candidate frame without its last byte, pushed from an empty buffer, is only buffered (40_resync.md rule R106). -/
theorem pushAll_allButCrc {c : Config} {len : Byte} (t : Byte) {p : List Byte} {k : Block} (hc : c.legal = true)
    (hk : k.buf = []) (hl : len.toNat ≤ c.lenMax) (hp : p.length + 2 = len.toNat) :
    pushAll c (c.syncByte :: len :: t :: p) k = ⟨{ k with buf := c.syncByte :: len :: t :: p }, [], [], []⟩ := by
  have hcontent := pushAll_content hc hl (t :: p) (k := { k with buf := [c.syncByte, len] }) (body := []) rfl
    (by simp; omega)
  rw [pushAll_cons, push_idle _ hc hk, if_pos rfl, pushAll_cons,
    push_length (k := { k with buf := [c.syncByte] }) len hc rfl (by omega) hl, hcontent]
  simp [Chunk.followedBy, chunkStep, push_idle _ hc hk, Scan.event,
    push_length (k := { k with buf := [c.syncByte] }) len hc rfl (by omega) hl]

/-- The pushes of a frame's bytes at a frame boundary deliver its record (40_resync.md rules R102 to R107). -/
theorem pushEach_frameBytes {s : State} (t : Byte) {p : List Byte} (hissued : s.issued = s.config)
    (hlegal : s.config.legal = true) (hk : s.block.buf = []) (hfits : s.config.fits p = true) :
    pushEach (s.config.frameBytes t p) s = .next (s.delivered (decodePayload s.config t p)) := by
  have hlen := frameLength_toNat hfits
  have hl : (BitVec.ofNat 8 (p.length + 2)).toNat ≤ s.config.lenMax := by rw [hlen]; exact (fits_iff _ p).mp hfits
  have hframe := pushAll_frame (t := t) hlegal hk hfits
  have hlast := push_last (k := { s.block with buf := s.config.syncByte :: BitVec.ofNat 8 (p.length + 2) :: t :: p })
    (crc8 (t :: p)) hlegal rfl hl hlen.symm
  have hok : crcCheck t p (crc8 (t :: p)) = true := beq_iff_eq.mpr rfl
  rw [if_pos hok] at hlast
  rw [frameBytes_eq] at hframe ⊢
  have hsnoc := pushEach_snoc (s.config.syncByte :: BitVec.ofNat 8 (p.length + 2) :: t :: p) (crc8 (t :: p)) hissued
  simp only [List.cons_append, hframe, pushAll_allButCrc t hlegal hk hl hlen.symm, hlast] at hsnoc
  rw [hsnoc]
  simp [State.delivered, pushStatus, Scan.event, Block.needMore, hk]
  rw [← hk]

/-- Settles O23: the row delivers what DECODE gives (`exec_frameRow`), and so do the pushes (`pushEach_frameBytes`). -/
theorem frameRowIsPushingItsBytes : Obligations.FrameRowIsPushingItsBytes := by
  intro s i f hissued hlegal hk hf
  obtain ⟨t, p, hi, hfits, rfl⟩ := encode_some hf
  exact ⟨_, exec_frameRow s i t p hissued hi, pushEach_frameBytes t hissued hlegal hk hfits⟩

end Sys2Proof.Proofs.Stream
end

section
/-! PROOFS. Garbage before frames (40_resync.md section 2), by the shape of the garbage's front: a byte that is no sync
byte, a malformed length, a whole candidate that fails its CRC. -/
namespace Sys2Proof.Proofs.Garbage

open Sys2Proof Sys2Proof.Machine Sys2Proof.Proofs.FrameFormat Sys2Proof.Proofs.Stream

/-! ### The provisos on the garbage that is left -/

theorem noCandidateReachesPast_append {c : Config} {a g rest : List Byte} (h : noCandidateReachesPast c (a ++ g) rest) :
    noCandidateReachesPast c g rest := by
  intro i hi hsync hlen
  have hshift : ((a ++ g) ++ rest).getD (a.length + i + 1) 0 = (g ++ rest).getD (i + 1) 0 := by
    rw [List.append_assoc, List.getD_append_right _ _ _ _ (by omega)]
    congr 1
    omega
  have hfront : (a ++ g).getD (a.length + i) 0 = g.getD i 0 := by
    rw [List.getD_append_right _ _ _ _ (by omega)]
    congr 1
    omega
  have hpast := h (a.length + i) (by simpa using hi) (hfront.trans hsync) (by rw [hshift]; exact hlen)
  rw [hshift, List.length_append] at hpast
  omega

theorem noChanceFrame_append {c : Config} {a g : List Byte} (h : noChanceFrame c (a ++ g)) : noChanceFrame c g := by
  intro i hi r
  have hfront := h (a.length + i) (by simpa using hi) r
  rwa [List.drop_length_add_append] at hfront

/-- The proviso reads one byte past the garbage. -/
theorem noCandidateReachesPast_more {c : Config} {g rest : List Byte} (more : List Byte) (hne : rest ≠ [])
    (h : noCandidateReachesPast c g rest) : noCandidateReachesPast c g (rest ++ more) := by
  intro i hi hsync hlen
  have hlt : i + 1 < (g ++ rest).length := by
    have := List.length_pos_iff.mpr hne
    simp only [List.length_append]
    omega
  have hsame : (g ++ (rest ++ more)).getD (i + 1) 0 = (g ++ rest).getD (i + 1) 0 := by
    rw [← List.append_assoc, List.getD_append _ _ _ _ hlt]
  rw [hsame] at hlen ⊢
  exact h i hi hsync hlen

/-! ### The pushes of the garbage's front -/

/-- Two chunks leave the same block and emit the same events; they may differ in the events and diags they return. -/
def SameDelivery (x y : Chunk) : Prop := x.block = y.block ∧ x.emitted = y.emitted

theorem SameDelivery.trans {x y z : Chunk} (h : SameDelivery x y) (h' : SameDelivery y z) : SameDelivery x z :=
  ⟨h.1.trans h'.1, h.2.trans h'.2⟩

theorem pushAll_hunt {c : Config} {k : Block} {b : Byte} (bs : List Byte) (hc : c.legal = true) (hk : k.buf = [])
    (hb : b ≠ c.syncByte) : SameDelivery (pushAll c (b :: bs) k) (pushAll c bs k) := by
  have hpush : push c b k = ⟨k, [], none⟩ := by rw [push_idle b hc hk, if_neg hb, ← hk]
  rw [pushAll_cons]
  simp [SameDelivery, Chunk.followedBy, chunkStep, hpush]

/-- A malformed length is pushed again as the first byte, its sync byte dropped and counted (40_resync.md rule R105). -/
theorem pushAll_malformed {c : Config} {k : Block} {len : Byte} (bs : List Byte) (hc : c.legal = true) (hk : k.buf = [])
    (hlen : c.lengthOk len.toNat = false) :
    SameDelivery (pushAll c (c.syncByte :: len :: bs) k)
      (pushAll c (len :: bs) { k with malformedCnt := k.malformedCnt + 1 }) := by
  have hrange : ¬ (2 ≤ len.toNat ∧ len.toNat ≤ c.lenMax) := by
    rw [← lengthOk_iff, hlen]
    simp
  have hsync := push_idle c.syncByte hc hk
  have hmalformed := push_malformed (k := { k with buf := [c.syncByte] }) len hc rfl hrange
  have hagain := push_idle (k := { k with malformedCnt := k.malformedCnt + 1 }) len hc hk
  simp only [pushAll_cons, hsync, if_true, hmalformed, hagain, SameDelivery, Chunk.followedBy, chunkStep,
    List.nil_append, and_self]

theorem pushAll_badCandidate {c : Config} {k : Block} {len t crc : Byte} {p : List Byte} (bs : List Byte)
    (hc : c.legal = true) (hk : k.buf = []) (hl : len.toNat ≤ c.lenMax) (hp : p.length + 2 = len.toNat)
    (hcrc : ¬ crcCheck t p crc = true) :
    SameDelivery (pushAll c (c.syncByte :: len :: t :: (p ++ [crc]) ++ bs) k)
      (pushAll c bs { k with crcErrCnt := k.crcErrCnt + 1 }) := by
  rw [pushAll_append, pushAll_candidate crc hc hk hl hp, if_neg hcrc]
  simp [SameDelivery, Chunk.followedBy]

/-! ### Garbage is dropped -/

/-- A candidate at the front of the garbage ends inside it. -/
theorem candidate_inside {c : Config} {g rest tail : List Byte} {len : Byte}
    (hpast : noCandidateReachesPast c (c.syncByte :: g) rest) (htail : g ++ rest = len :: tail)
    (hlen : c.lengthOk len.toNat = true) :
    ∃ t p crc after, g = len :: t :: (p ++ crc :: after) ∧ p.length + 2 = len.toNat := by
  obtain ⟨h2, -⟩ := (lengthOk_iff c _).mp hlen
  have hinside := hpast 0 (by simp) rfl
  simp only [Nat.zero_add, List.cons_append, List.getD_cons_succ, htail, List.getD_cons_zero, List.length_cons, hlen,
    forall_const] at hinside
  rcases g with _ | ⟨b, body⟩
  · simp at hinside
  · obtain ⟨rfl, -⟩ := List.cons.inj htail
    simp only [List.length_cons] at hinside
    obtain ⟨t, p, crc, after, rfl, hp⟩ := body_split (n := b.toNat - 2) (body := body) (by omega)
    exact ⟨t, p, crc, after, rfl, by omega⟩

/-- Garbage that meets the provisos of 40_resync.md rule R111 only moves counters: what follows is pushed into an empty
buffer. -/
theorem pushAll_garbage {c : Config} {rest : List Byte} (hc : c.legal = true)
    (hrest : rest ≠ []) (g : List Byte) :
    ∀ {k : Block}, k.buf = [] → noCandidateReachesPast c g rest → noChanceFrame c g →
    ∃ k' : Block, k'.buf = [] ∧ SameDelivery (pushAll c (g ++ rest) k) (pushAll c rest k') := by
  induction hn : g.length using Nat.strong_induction_on generalizing g with
  | _ n ih =>
  intro k hk hpast hchance
  rcases g with _ | ⟨b, g⟩
  · exact ⟨k, hk, rfl, rfl⟩
  by_cases hb : b = c.syncByte
  · subst hb
    obtain ⟨len, tail, htail⟩ := List.exists_cons_of_ne_nil (List.append_ne_nil_of_right_ne_nil g hrest)
    by_cases hlen : c.lengthOk len.toNat = true
    · obtain ⟨h2, hl⟩ := (lengthOk_iff c _).mp hlen
      obtain ⟨t, p, crc, after, rfl, hp⟩ := candidate_inside hpast htail hlen
      have hdec := decode_candidate t crc after hl hp
      have hcrc : ¬ crcCheck t p crc = true := fun hok => hchance 0 (by simp) _ (hdec.trans (if_pos hok))
      have hsplit : c.syncByte :: len :: t :: (p ++ crc :: after) =
          (c.syncByte :: len :: t :: (p ++ [crc])) ++ after := by simp
      rw [hsplit] at hpast hchance ⊢
      obtain ⟨k', hk', hrun⟩ := ih after.length (by rw [← hn]; simp; omega) after rfl
        (k := { k with crcErrCnt := k.crcErrCnt + 1 }) hk (noCandidateReachesPast_append hpast)
        (noChanceFrame_append hchance)
      have hfront := pushAll_badCandidate (after ++ rest) hc hk hl hp hcrc
      rw [List.append_assoc]
      exact ⟨k', hk', hfront.trans hrun⟩
    · obtain ⟨k', hk', hrun⟩ := ih g.length (by rw [← hn]; simp) g rfl
        (k := { k with malformedCnt := k.malformedCnt + 1 }) hk
        (noCandidateReachesPast_append (a := [c.syncByte]) hpast) (noChanceFrame_append (a := [c.syncByte]) hchance)
      have hfront := pushAll_malformed tail hc hk (Bool.eq_false_iff.mpr hlen)
      rw [← htail] at hfront
      exact ⟨k', hk', hfront.trans hrun⟩
  · obtain ⟨k', hk', hrun⟩ := ih g.length (by rw [← hn]; simp) g rfl hk
      (noCandidateReachesPast_append (a := [b]) hpast) (noChanceFrame_append (a := [b]) hchance)
    have hfront := pushAll_hunt (g ++ rest) hc hk hb
    exact ⟨k', hk', hfront.trans hrun⟩

/-- Settles O22: by `pushAll_garbage` the garbage is dropped, and each frame is delivered from an empty buffer. -/
theorem garbageThenTwoFramesDeliversTheTwo : Obligations.GarbageThenTwoFramesDeliversTheTwo := by
  intro s g p1 p2 t1 t2 hissued hlegal hk hfits1 hfits2 hpast hchance
  have hframe : s.config.frameBytes t1 p1 ≠ [] := by simp [frameBytes_eq]
  obtain ⟨k, hk', hblock, hemitted⟩ := pushAll_garbage hlegal
    (List.append_ne_nil_of_left_ne_nil hframe (s.config.frameBytes t2 p2)) g hk
    (noCandidateReachesPast_more _ hframe hpast) hchance
  have hframes : pushAll s.config (s.config.frameBytes t1 p1 ++ s.config.frameBytes t2 p2) k =
      (⟨k, [decodePayload s.config t1 p1], [decodePayload s.config t1 p1], []⟩ : Chunk).followedBy
        ⟨k, [decodePayload s.config t2 p2], [decodePayload s.config t2 p2], []⟩ := by
    rw [pushAll_append, pushAll_frame hlegal hk' hfits1, pushAll_frame hlegal hk' hfits2]
  rw [hframes] at hblock hemitted
  refine ⟨_, exec_pushChunk _ hissued, ?_, ?_⟩
  · rw [List.append_assoc, hblock]
    exact hk'
  · rw [List.append_assoc, hemitted]
    rfl

end Sys2Proof.Proofs.Garbage
end

section
/-! PROOFS. The step (20_memory.md rules R51, R57, R58): which unit of work it runs, and the drain of a stretch of
stream as the pushes of its bytes. -/
namespace Sys2Proof.Proofs.Wire

open Sys2Proof Sys2Proof.Machine Sys2Proof.Proofs.FrameFormat Sys2Proof.Proofs.Stream

/-! ### One step -/

theorem step_idle {s : State} (hhost : s.host = []) : step s = .next s := by
  simp [step, fetch, hhost]

theorem step_op {s : State} {cfg : Config} {h : HostOp} {rest : List Request}
    (hhost : s.host = { config := cfg, item := .op h } :: rest) : step s = exec h.instr (s.begin cfg rest) := by
  simp [step, fetch, hhost]

theorem step_emptyWire {s : State} {cfg : Config} {rest : List Request}
    (hhost : s.host = { config := cfg, item := .wire [] } :: rest) : step s = .next (s.begin cfg rest) := by
  simp [step, fetch, hhost]

theorem step_frame {s : State} {cfg : Config} {bytes tail : List Byte} {rest : List Request} {i : Instr}
    (hhost : s.host = { config := cfg, item := .wire bytes } :: rest) (hk : s.block.buf = [])
    (hdec : decode s.config bytes = .ok (i, tail)) : step s = exec i (s.begin cfg (wireRest cfg tail rest)) := by
  rcases bytes with _ | ⟨b, bs⟩
  · simp [decode] at hdec
  · simp [step, fetch, hhost, fetchFrame, hk, hdec]

theorem step_byte {s : State} {cfg : Config} {b : Byte} {bs : List Byte} {rest : List Request}
    (hhost : s.host = { config := cfg, item := .wire (b :: bs) } :: rest)
    (hno : s.block.buf ≠ [] ∨ ∀ r, decode s.config (b :: bs) ≠ .ok r) :
    step s = exec (.pushByte b) (s.begin cfg (wireRest cfg bs rest)) := by
  have hnone : fetchFrame s (b :: bs) = none := by
    rcases hk : s.block.buf with _ | ⟨x, buf⟩
    · rcases hdec : decode s.config (b :: bs) with why | r
      · simp [fetchFrame, hk, hdec]
      · exact absurd hdec ((hno.resolve_left (by simp [hk])) r)
    · simp [fetchFrame, hk]
  simp [step, fetch, hhost, hnone]

/-- Settles O4: one `step_` lemma for each clause. -/
theorem stepRunsTheNextUnitOfWork : Obligations.StepRunsTheNextUnitOfWork :=
  ⟨fun _ => step_idle, fun _ _ _ _ => step_op, fun _ _ _ _ _ _ => step_frame, fun _ _ _ _ _ => step_byte,
    fun _ _ _ => step_emptyWire⟩

/-! ### The drain -/

theorem run_succ_of_step {s t : State} (k : Nat) (h : step s = .next t) :
    Sys2Proof.core.run (k + 1) s = Sys2Proof.core.run k t := by
  simp only [Host.Core.run, show Sys2Proof.core.step s = .next t from h]

/-- The state in which the stretch `bytes` is left of the stream, with `rest` queued behind it. -/
structure Streaming (bytes : List Byte) (rest : List Request) (s : State) : Prop where
  legal  : s.config.legal = true
  queue  : s.host = wireRest s.config bytes rest
  issued : bytes = [] → s.issued = s.config

theorem begin_self {cfg : Config} {s : State} (h : s.issued = cfg) : s.begin cfg s.host = s := by
  subst h
  rfl

/-- Draining what is left of a stretch is pushing its bytes: a step that runs a frame row is the pushes of the frame's
bytes (`pushEach_frameBytes`), and any other step is one push. -/
theorem drain {rest : List Request} (bytes : List Byte) : ∀ {s : State}, Streaming bytes rest s →
    ∃ (k : Nat) (t : State), k ≤ bytes.length ∧ Sys2Proof.core.run k s = .next t ∧
      pushEach bytes (s.begin s.config rest) = .next t := by
  induction hn : bytes.length using Nat.strong_induction_on generalizing bytes with
  | _ n ih =>
  rintro s ⟨hlegal, hqueue, hissued⟩
  rcases bytes with _ | ⟨b, bs⟩
  · have hsame : s.begin s.config rest = s := by
      rw [← show s.host = rest from hqueue]
      exact begin_self (hissued rfl)
    exact ⟨0, s, Nat.zero_le _, rfl, congrArg Host.Outcome.next hsame⟩
  by_cases hframe : s.block.buf = [] ∧ ∃ r, decode s.config (b :: bs) = .ok r
  · obtain ⟨hk, ⟨i, tail⟩, hdec⟩ := hframe
    obtain ⟨t, p, hfits, rfl, hbytes⟩ := decode_ok hdec
    have hstep := (step_frame hqueue hk hdec).trans (exec_frameRow _ _ t p rfl (typeAndPayload_frameRow _ t p))
    have hpush := pushEach_frameBytes (s := s.begin s.config rest) t rfl hlegal hk hfits
    have hshorter : tail.length < n := by
      rw [← hn, hbytes]
      simp [frameBytes_eq]
      omega
    obtain ⟨k, u, hle, hrun, hpushes⟩ := ih tail.length hshorter tail rfl
      (s := (s.begin s.config (wireRest s.config tail rest)).delivered (decodePayload s.config t p))
      ⟨hlegal, rfl, fun _ => rfl⟩
    refine ⟨k + 1, u, by omega, (run_succ_of_step k hstep).trans hrun, ?_⟩
    rw [hbytes, pushEach_append, show pushEach (s.config.frameBytes t p) (s.begin s.config rest) = _ from hpush]
    exact hpushes
  · have hno : s.block.buf ≠ [] ∨ ∀ r, decode s.config (b :: bs) ≠ .ok r := by
      simpa only [not_and_or, not_exists] using hframe
    have hstep := (step_byte hqueue hno).trans (exec_pushByte_afterPush b rfl)
    obtain ⟨k, u, hle, hrun, hpushes⟩ := ih bs.length (by simp [← hn]) bs rfl
      (s := afterPush b (s.begin s.config (wireRest s.config bs rest))) ⟨hlegal, rfl, fun _ => rfl⟩
    refine ⟨k + 1, u, by simpa [← hn] using hle, (run_succ_of_step k hstep).trans hrun, ?_⟩
    rw [pushEach, exec_pushByte_afterPush b rfl]
    exact hpushes

/-- Settles O24: an empty stretch takes the one step that leaves the queue, and any other is drained by `drain`. -/
theorem wireDrainsAsPushes : Obligations.WireDrainsAsPushes := by
  intro s bytes rest hlegal hhost
  rcases bytes with _ | ⟨b, bs⟩
  · exact ⟨1, _, Nat.le_refl _, run_succ_of_step 0 (step_emptyWire hhost), rfl⟩
  · obtain ⟨k, t, hle, hrun, hpushes⟩ := drain (b :: bs) ⟨hlegal, hhost, by simp⟩
    exact ⟨k, t, by omega, hrun, hpushes⟩

end Sys2Proof.Proofs.Wire
end

section
/-! PROOFS. PACK, ENCODE, FRAME_ENCODE, ENCODE_RECORD, READ_DIAG and RESET through `exec`, and their statements
(42_channels.md, 43_payload_codec.md, 44_frame_encoder.md, 60_exceptions.md, 70_reset_and_hazards.md). -/
namespace Sys2Proof.Proofs.Operations

open Sys2Proof Sys2Proof.Machine Sys2Proof.Proofs.Channels Sys2Proof.Proofs.FrameEncoder

/-! ### The length of an encoded payload -/

theorem orRefuse_ok {α : Type} {ok : Bool} {why : Refusal} {a b : α} (h : orRefuse ok why a = .ok b) : a = b := by
  unfold orRefuse at h
  split at h
  · exact Except.ok.inj h
  · cases h

/-- The payload length of a record's frame, whatever the form of its fields (30_encoding.md rule R74). -/
def payloadLength {α : Type} : Record α → Nat
  | .channels _       => 22
  | .linkStats _      => 10
  | .gps _            => 15
  | .battery _        => 8
  | .attitude _       => 6
  | .flightMode label => label.length + 1
  | .unknown _ bytes  => bytes.length

theorem recordFits_eq (c : Config) (r : Operand) : c.recordFits r = decide (payloadLength r + 2 ≤ c.lenMax) := by
  cases r <;> rfl

/-- Turning physical values into raw fields keeps the record's kind, its label and its bytes. -/
theorem payloadLength_toRaw {r : Operand} {e : Event} (h : r.toRaw = some e) : payloadLength e = payloadLength r := by
  cases r <;> simp only [Record.toRaw, Option.some.injEq, Option.map_eq_some_iff] at h
  case channels => rw [← h]; rfl
  case flightMode => rw [← h]; rfl
  case unknown => rw [← h]; rfl
  all_goals
    obtain ⟨raw, -, rfl⟩ := h
    rfl

theorem map_prod_ok {α β ε : Type} {x : Except ε β} {a t : α} {p : β} (h : x.map (fun q => (a, q)) = .ok (t, p)) :
    x = .ok p := by
  cases x with
  | error why => cases h
  | ok q => cases h; rfl

theorem encodeRaw_length {c : Config} {e : Event} {t : Byte} {p : List Byte} (h : encodeRaw c e = .ok (t, p)) :
    p.length = payloadLength e := by
  cases e <;> have hp := orRefuse_ok (map_prod_ok h) <;> rw [← hp] <;> simp [payloadLength, putBE_length]

/-- The payload of an encoded record fits a frame exactly when the record's frame does. -/
theorem recordFits_eq_fits {c : Config} {r : Operand} {t : Byte} {p : List Byte} (h : encodePayload c r = .ok (t, p)) :
    c.recordFits r = c.fits p := by
  unfold encodePayload at h
  split at h
  · rename_i e hraw
    rw [recordFits_eq, ← payloadLength_toRaw hraw, ← encodeRaw_length h, Config.fits]
  · cases h

/-! ### Requests that complete -/

theorem encodePayload_of_encodable {c : Config} {r : Operand} (h : c.encodable r = true) :
    ∃ t p, encodePayload c r = .ok (t, p) := by
  unfold Config.encodable at h
  split at h
  · rename_i e hraw
    obtain ⟨t, p, hok⟩ := encodeRaw_ok h
    exact ⟨t, p, by simp only [encodePayload, hraw, hok]⟩
  · cases h

theorem exec_encode_ok {s : State} {r : Operand} {t : Byte} {p : List Byte} (hissued : s.issued = s.config)
    (h : encodePayload s.config r = .ok (t, p)) :
    exec (.encode r) s = .next { s with returned := .typeAndPayload t p } := by
  rw [exec_encode s r hissued, h]

theorem exec_encode_error {s : State} {r : Operand} {why : Refusal} (hissued : s.issued = s.config)
    (h : encodePayload s.config r = .error why) : exec (.encode r) s = .refused why := by
  rw [exec_encode s r hissued, h]

/-- PACK under the configuration in force: the channels' range decides it (42_channels.md rule R152). -/
theorem exec_pack_eq {s : State} (ch : Vector Int 16) (h : s.issued = s.config) :
    exec (.pack ch) s = if channelsOk ch = true then .next { s with returned := .payload (pack ch) }
      else .refused .channelOutOfRange := by
  simp [exec, execPack, underConfig, h, State.answer]

/-- READ_DIAG under the configuration in force (60_exceptions.md rule R262). -/
theorem exec_readDiag {s : State} (h : s.issued = s.config) :
    exec .readDiag s = .next { s with returned := .counters (diagCounters s.block) } := by
  simp [exec, execReadDiag, underConfig, h, State.answer]

/-! ### The statements -/

/-- Settles O35: bit n of the payload is bit n of the channels' sum (`pack_getLsbD`), which is bit n mod 11 of channel
n div 11 (`channelBits_testBit`). -/
theorem packPlacesEveryBit : Obligations.PackPlacesEveryBit := by
  intro s ch hissued
  rw [exec_pack_eq ch hissued, ← channelsOk_iff]
  refine ⟨fun hok => ⟨pack ch, if_pos hok, pack_length ch, fun n hn => ?_⟩, fun hbad => if_neg hbad⟩
  have hch := (channelsOk_iff ch).mp hok
  rw [pack_getLsbD ch (by omega) (Nat.mod_lt n (by decide)), Nat.div_add_mod,
    channelBits_testBit _ (by simpa using hch)]

/-- Settles O46: `exec_frameEncode` is `sendFrame`, which the payload's length decides. -/
theorem frameEncodeBuildsTheFrame : Obligations.FrameEncodeBuildsTheFrame := by
  intro s t p hissued
  rw [exec_frameEncode t p hissued, sendFrame_eq]
  exact ⟨fun hfits => if_pos ((fits_iff _ p).mpr hfits), fun hlong => if_neg (mt (fits_iff _ p).mp hlong)⟩

/-- Settles O47: both operations run the same `encodePayload`, and its answer decides them. -/
theorem encodeRecordIsEncodeThenFrame : Obligations.EncodeRecordIsEncodeThenFrame := by
  intro s r hissued
  have hrecord := exec_encodeRecord s r hissued
  rcases henc : encodePayload s.config r with why | ⟨t, p⟩
  · rw [henc] at hrecord
    exact .inr ⟨why, exec_encode_error hissued henc, hrecord⟩
  · rw [henc] at hrecord
    exact .inl ⟨t, p, exec_encode_ok hissued henc, hrecord.trans (exec_frameEncode t p hissued).symm⟩

/-- Settles O48: an encodable record encodes (`encodePayload_of_encodable`), to a payload that fits because the record's
frame does (`recordFits_eq_fits`). -/
theorem encodeRecordCompletes : Obligations.EncodeRecordCompletes := by
  intro s r hissued hwf
  simp only [Instr.wellFormed, Bool.and_eq_true] at hwf
  obtain ⟨hencodable, hfits⟩ := hwf
  obtain ⟨t, p, henc⟩ := encodePayload_of_encodable hencodable
  rw [recordFits_eq_fits henc] at hfits
  exact ⟨t, p, hfits, exec_encode_ok hissued henc, encodeRecord_transmits henc hfits s rfl hissued⟩

/-- Settles O51: `exec_readDiag`, before and after. -/
theorem readDiagReturnsTheCounters : Obligations.ReadDiagReturnsTheCounters := by
  intro s hissued
  exact ⟨_, rfl, exec_readDiag hissued, exec_readDiag (by exact hissued)⟩

/-- Settles O52: RESET is decided by `legal_iff`. -/
theorem resetInitialisesTheBlock : Obligations.ResetInitialisesTheBlock := by
  intro s cfg
  rw [← legal_iff, show exec (.reset cfg) s = execReset cfg s from rfl, execReset]
  exact ⟨fun hlegal => if_pos hlegal, fun hillegal => if_neg hillegal⟩

/-- Settles O53: the reset state's fields are the defaults, and RESET writes the block and the configuration whatever
the state. -/
theorem powerOnIsResetWithTheDefaults : Obligations.PowerOnIsResetWithTheDefaults :=
  ⟨rfl, rfl, rfl, rfl, rfl, fun _ => ⟨_, rfl, rfl, rfl⟩⟩

/-- Settles O54: every meaning but RESET's runs under `underConfig`, which refuses before it looks at an operand. -/
theorem changedConfigurationIsRefused : Obligations.ChangedConfigurationIsRefused := by
  intro s i hreset hchanged
  have hrefused : ∀ run, underConfig s run = .refused .configChanged := fun _ => if_neg hchanged
  cases i with
  | reset cfg => exact absurd rfl (hreset cfg)
  | _ => exact hrefused _

end Sys2Proof.Proofs.Operations
end

section
/-! PROOFS. The frame rows' statements (42_channels.md, 43_payload_codec.md): which row of the dispatch map takes a
payload, and the fields of each layout as concatenated bytes; then the statements. -/
namespace Sys2Proof.Proofs.FrameRows

open Sys2Proof Sys2Proof.Machine Sys2Proof.Proofs.Channels Sys2Proof.Proofs.FrameEncoder Sys2Proof.Proofs.RoundTrip

/-! ### Which row takes a payload -/

/-- The record of a row that takes the payload (43_payload_codec.md rule R170). -/
def rowRecord (p : List Byte) : KnownType → Event
  | .channels   => .channels (unpack p)
  | .linkStats  => .linkStats (decLink p)
  | .gps        => .gps (decGps p)
  | .battery    => .battery (decBatt p)
  | .attitude   => .attitude (decAtt p)
  | .flightMode => .flightMode (decFm p)

theorem decodePayload_of_takes {c : Config} {t : Byte} {p : List Byte} {k : KnownType} (h : c.rowTakes t p k = true) :
    decodePayload c t p = rowRecord p k := by
  simp only [Config.rowTakes, Bool.and_eq_true, beq_iff_eq] at h
  obtain ⟨⟨rfl, hset⟩, hform⟩ := h
  cases k <;> simp only [KnownType.formOk, beq_iff_eq] at hform <;>
    simp [decodePayload, KnownType.code, hset, hform, rowRecord]

/-- A payload no row takes is Unknown (43_payload_codec.md rule R200). -/
theorem decodePayload_of_rowOf_none {c : Config} {t : Byte} {p : List Byte} (h : ∀ k, c.rowTakes t p k = false) :
    decodePayload c t p = .unknown t p := by
  have h1 := h .channels
  have h2 := h .linkStats
  have h3 := h .gps
  have h4 := h .battery
  have h5 := h .attitude
  have h6 := h .flightMode
  simp only [Config.rowTakes, KnownType.code, KnownType.formOk] at h1 h2 h3 h4 h5 h6
  simp only [decodePayload, h1, h2, h3, h4, h5, h6, Bool.false_eq_true, if_false]

theorem code_injective {j k : KnownType} (h : j.code = k.code) : j = k := by
  cases j <;> cases k <;> simp [KnownType.code] at h <;> rfl

/-- A known code whose type is not decoded, or whose payload has not the row's form, is taken by no row (30_encoding.md
rule R77). -/
theorem decodePayload_of_wrongShape {c : Config} {p : List Byte} {k : KnownType}
    (h : c.decodeSet.has k = false ∨ k.formOk p = false) : decodePayload c k.code p = .unknown k.code p := by
  refine decodePayload_of_rowOf_none fun j => Bool.eq_false_iff.mpr fun htakes => ?_
  simp only [Config.rowTakes, Bool.and_eq_true, beq_iff_eq] at htakes
  obtain ⟨⟨hcode, hset⟩, hform⟩ := htakes
  obtain rfl := code_injective hcode
  rcases h with h | h
  · simp [h] at hset
  · simp [h] at hform

/-- A frame row that takes its payload delivers the row's record. -/
theorem exec_row {s : State} {i : Instr} {t : Byte} {p : List Byte} {k : KnownType} (hissued : s.issued = s.config)
    (hi : i.typeAndPayload = some (t, p)) (htakes : s.config.rowTakes t p k = true) :
    exec i s = .next (s.delivered (rowRecord p k)) := by
  rw [exec_frameRow s i t p hissued hi, decodePayload_of_takes htakes]

theorem exec_row_wrongShape {s : State} {i : Instr} {p : List Byte} {k : KnownType} (hissued : s.issued = s.config)
    (hi : i.typeAndPayload = some (k.code, p)) (h : s.config.decodeSet.has k = false ∨ k.formOk p = false) :
    exec i s = .next (s.delivered (.unknown k.code p)) := by
  rw [exec_frameRow s i _ p hissued hi, decodePayload_of_wrongShape h]

/-! ### Fields as concatenated bytes -/

theorem two_toNat (a b : Byte) : (a ++ b).toNat = a.toNat * 256 + b.toNat := append_toNat a b

theorem three_toNat (a b c : Byte) : (a ++ b ++ c).toNat = (a.toNat * 256 + b.toNat) * 256 + c.toNat := by
  rw [append_toNat, two_toNat]
  rfl

theorem four_toNat (a b c d : Byte) :
    (a ++ b ++ c ++ d).toNat = ((a.toNat * 256 + b.toNat) * 256 + c.toNat) * 256 + d.toNat := by
  rw [append_toNat, three_toNat]
  rfl

theorem beS_eq_toInt {p : List Byte} {o n w : Nat} {x : BitVec w} (hw : w = 8 * n) (hn : 0 < n)
    (h : beU p o n = x.toNat) : beS p o n = x.toInt := by
  subst hw
  have hpow : 2 ^ (8 * n) = 2 * 2 ^ (8 * n - 1) := by rw [← pow_succ']; congr 1; omega
  have hcond : 2 ^ (8 * n - 1) ≤ x.toNat ↔ ¬ 2 * x.toNat < 2 ^ (8 * n) := by omega
  rw [beS, h, BitVec.toInt_eq_toNat_cond, if_congr hcond rfl rfl, ite_not]
  push_cast
  rfl

/-! ### The statements -/

/-- Settles O5: the row delivers UNPACK of the payload, whose bits `unpack_testBit` places. -/
theorem channelsFrameDelivers : Obligations.ChannelsFrameDelivers := by
  intro s p hissued hset hp
  have htakes : s.config.rowTakes 0x16#8 p .channels = true := by
    simp [Config.rowTakes, KnownType.code, DecodeSet.has, KnownType.formOk, hset, hp]
  refine ⟨unpack p, exec_row hissued rfl htakes, fun i j hi => ?_⟩
  obtain ⟨hlo, hhi⟩ := unpack_getElem_inRange p i hi
  exact ⟨hlo, hhi, fun hj => (unpack_testBit p hi hj).trans (leBits_testBit _ _)⟩

/-- Settles O6: each byte is a field by `beU_one` or `beS_one`. -/
theorem linkStatsFrameDelivers : Obligations.LinkStatsFrameDelivers := by
  intro s b0 b1 b2 b3 b4 b5 b6 b7 b8 b9 hissued hset
  have htakes : s.config.rowTakes 0x14#8 [b0, b1, b2, b3, b4, b5, b6, b7, b8, b9] .linkStats = true := by
    simp [Config.rowTakes, KnownType.code, DecodeSet.has, KnownType.formOk, hset]
  rw [exec_row hissued rfl htakes, rowRecord, decLink]
  simp [beU_one, beS_one]

/-- Settles O7: the coordinates by `beS_eq_toInt`, the other fields by their bytes. -/
theorem gpsFrameDelivers : Obligations.GpsFrameDelivers := by
  intro s b0 b1 b2 b3 b4 b5 b6 b7 b8 b9 b10 b11 b12 b13 b14 hissued hset
  have htakes : s.config.rowTakes 0x02#8 [b0, b1, b2, b3, b4, b5, b6, b7, b8, b9, b10, b11, b12, b13, b14] .gps =
      true := by
    simp [Config.rowTakes, KnownType.code, DecodeSet.has, KnownType.formOk, hset]
  rw [exec_row hissued rfl htakes, rowRecord, decGps, beS_eq_toInt (n := 4) (x := b0 ++ b1 ++ b2 ++ b3) rfl four_pos
    (by simp [beU, four_toNat]), beS_eq_toInt (n := 4) (x := b4 ++ b5 ++ b6 ++ b7) rfl four_pos
    (by simp [beU, four_toNat])]
  simp [beU, two_toNat]

/-- Settles O8: every field by their bytes. -/
theorem batteryFrameDelivers : Obligations.BatteryFrameDelivers := by
  intro s b0 b1 b2 b3 b4 b5 b6 b7 hissued hset
  have htakes : s.config.rowTakes 0x08#8 [b0, b1, b2, b3, b4, b5, b6, b7] .battery = true := by
    simp [Config.rowTakes, KnownType.code, DecodeSet.has, KnownType.formOk, hset]
  rw [exec_row hissued rfl htakes, rowRecord, decBatt]
  simp [beU, two_toNat, three_toNat]

/-- Settles O9: every field by `beS_eq_toInt`. -/
theorem attitudeFrameDelivers : Obligations.AttitudeFrameDelivers := by
  intro s b0 b1 b2 b3 b4 b5 hissued hset
  have htakes : s.config.rowTakes 0x1E#8 [b0, b1, b2, b3, b4, b5] .attitude = true := by
    simp [Config.rowTakes, KnownType.code, DecodeSet.has, KnownType.formOk, hset]
  rw [exec_row hissued rfl htakes, rowRecord, decAtt,
    beS_eq_toInt (n := 2) (x := b0 ++ b1) rfl two_pos (by simp [beU, two_toNat]),
    beS_eq_toInt (n := 2) (x := b2 ++ b3) rfl two_pos (by simp [beU, two_toNat]),
    beS_eq_toInt (n := 2) (x := b4 ++ b5) rfl two_pos (by simp [beU, two_toNat])]

/-- Settles O10: the payload is canonical (`fmCanon_iff`), and the record is all of it but its last byte. -/
theorem flightModeFrameDelivers : Obligations.FlightModeFrameDelivers := by
  intro s label hissued hset hlabel
  have hcanon : fmCanon (label ++ [0x00#8]) = true := (fmCanon_iff _).mpr ⟨label, rfl, hlabel⟩
  have htakes : s.config.rowTakes 0x21#8 (label ++ [0x00#8]) .flightMode = true := by
    simp [Config.rowTakes, KnownType.code, DecodeSet.has, KnownType.formOk, hset, hcanon]
  rw [exec_row hissued rfl htakes, rowRecord, decFm, List.dropLast_concat]

/-- Settles O11: each hypothesis denies one row of the dispatch map. -/
theorem unknownFrameDelivers : Obligations.UnknownFrameDelivers := by
  intro s t p hissued h1 h2 h3 h4 h5 h6
  rw [← fmCanon_iff] at h6
  rw [exec_frameRow s _ t p hissued rfl, decodePayload_of_rowOf_none]
  intro k
  rw [← Bool.not_eq_true, Config.rowTakes, Bool.and_eq_true, Bool.and_eq_true, beq_iff_eq, and_assoc]
  cases k with
  | channels => simpa [KnownType.formOk, KnownType.code, DecodeSet.has] using h1
  | linkStats => simpa [KnownType.formOk, KnownType.code, DecodeSet.has] using h2
  | gps => simpa [KnownType.formOk, KnownType.code, DecodeSet.has] using h3
  | battery => simpa [KnownType.formOk, KnownType.code, DecodeSet.has] using h4
  | attitude => simpa [KnownType.formOk, KnownType.code, DecodeSet.has] using h5
  | flightMode => exact h6

/-- Settles O12: `exec_row_wrongShape` at each of the six codes. -/
theorem knownCodeOfWrongShapeIsUnknown : Obligations.KnownCodeOfWrongShapeIsUnknown := by
  intro s p hissued
  refine ⟨fun h => exec_row_wrongShape (k := .channels) hissued rfl ?_,
    fun h => exec_row_wrongShape (k := .linkStats) hissued rfl ?_,
    fun h => exec_row_wrongShape (k := .gps) hissued rfl ?_,
    fun h => exec_row_wrongShape (k := .battery) hissued rfl ?_,
    fun h => exec_row_wrongShape (k := .attitude) hissued rfl ?_,
    fun h => exec_row_wrongShape (k := .flightMode) hissued rfl (h.imp_right fun hform => ?_)⟩
  · simpa [DecodeSet.has, KnownType.formOk] using h
  · simpa [DecodeSet.has, KnownType.formOk] using h
  · simpa [DecodeSet.has, KnownType.formOk] using h
  · simpa [DecodeSet.has, KnownType.formOk] using h
  · simpa [DecodeSet.has, KnownType.formOk] using h
  · refine Bool.eq_false_iff.mpr fun hcanon => ?_
    obtain ⟨label, rfl, hlabel⟩ := (fmCanon_iff p).mp hcanon
    exact hlabel _ (hform label rfl) rfl

/-- Settles O13: `exec_frameRow` is stated with the record DECODE returns. -/
theorem decodeReturnsWhatTheFrameDelivers : Obligations.DecodeReturnsWhatTheFrameDelivers := by
  intro s i t p hissued hi
  exact ⟨_, exec_decode t p hissued, exec_frameRow s i t p hissued hi⟩

end Sys2Proof.Proofs.FrameRows
end

section
/-! PROOFS. ENCODE (43_payload_codec.md): raw records byte by byte and their refusals, the grid of physical values of
every field, and which physical values are refused. -/
namespace Sys2Proof.Proofs.Encode

open Sys2Proof Sys2Proof.Machine Sys2Proof.Proofs.Operations

/-! ### Raw records -/

/-- ENCODE of an operand of raw fields whose check holds. -/
theorem exec_encode_raw {s : State} {r : Operand} {e : Event} {t : Byte} {p : List Byte} (hissued : s.issued = s.config)
    (hraw : r.toRaw = some e) (h : encodeRaw s.config e = .ok (t, p)) :
    exec (.encode r) s = .next { s with returned := .typeAndPayload t p } :=
  exec_encode_ok hissued (by simp only [encodePayload, hraw, h])

theorem exec_encode_raw_error {s : State} {r : Operand} {e : Event} {why : Refusal} (hissued : s.issued = s.config)
    (hraw : r.toRaw = some e) (h : encodeRaw s.config e = .error why) : exec (.encode r) s = .refused why :=
  exec_encode_error hissued (by simp only [encodePayload, hraw, h])

/-- ENCODE reads of an operand only the raw record it stands for. -/
theorem exec_encode_congr {s : State} {r r' : Operand} (hissued : s.issued = s.config) (h : r.toRaw = r'.toRaw) :
    exec (.encode r) s = exec (.encode r') s := by
  rw [exec_encode s r hissued, exec_encode s r' hissued, encodePayload, encodePayload, h]

/-- A payload that a check guards, decided by the check as a proposition. -/
theorem exec_encode_guarded {s : State} {r : Operand} {e : Event} {t : Byte} {p q : List Byte} {ok : Bool}
    {why : Refusal} {P : Prop} (hissued : s.issued = s.config) (hraw : r.toRaw = some e)
    (henc : encodeRaw s.config e = (orRefuse ok why p).map fun p => (t, p)) (hok : ok = true ↔ P) (hp : p = q) :
    (P → exec (.encode r) s = .next { s with returned := .typeAndPayload t q }) ∧
      (¬ P → exec (.encode r) s = .refused why) := by
  subst hp
  refine ⟨fun h => exec_encode_raw hissued hraw ?_, fun h => exec_encode_raw_error hissued hraw ?_⟩
  · rw [henc, orRefuse, if_pos (hok.mpr h)]
    rfl
  · rw [henc, orRefuse, if_neg (mt hok.mp h)]
    rfl

/-- Settles O37: the check is the fields' bounds, and each byte is a field by `putBE_one`. -/
theorem encodeLinkStats : Obligations.EncodeLinkStats := by
  intro s r1 r2 lq snr ant mode pw dr dl ds hissued
  refine exec_encode_guarded hissued rfl rfl ?_ (by simp [putBE_one])
  simp only [LinkStats.all, LinkStats.zip, LinkStats.fields, Bool.and_eq_true, holds_iff, Width.lo, Width.hi, and_assoc]

/-- Settles O38: its bytes by `putBE_four`, `putBE_two` and `putBE_one`. -/
theorem encodeGps : Obligations.EncodeGps := by
  intro s lat lon spd hdg alt sats hissued
  refine exec_encode_guarded hissued rfl rfl ?_ (by simp [putBE_one, putBE_two, putBE_four])
  simp only [Gps.all, Gps.zip, Gps.fields, Bool.and_eq_true, holds_iff, Width.lo, Width.hi, and_assoc]

/-- Settles O39: its bytes by `putBE_two`, `putBE_three` and `putBE_one`. -/
theorem encodeBattery : Obligations.EncodeBattery := by
  intro s v a cap rem hissued
  refine exec_encode_guarded hissued rfl rfl ?_ (by simp [putBE_one, putBE_two, putBE_three])
  simp only [Battery.all, Battery.zip, Battery.fields, Bool.and_eq_true, holds_iff, Width.lo, Width.hi, and_assoc]

/-- Settles O40: its bytes by `putBE_two`. -/
theorem encodeAttitude : Obligations.EncodeAttitude := by
  intro s x y z hissued
  refine exec_encode_guarded hissued rfl rfl ?_ (by simp [putBE_two])
  simp only [Attitude.all, Attitude.zip, Attitude.fields, Bool.and_eq_true, holds_iff, Width.lo, Width.hi, and_assoc]

/-- Settles O41: each check is the proposition its `_iff` lemma says. -/
theorem encodeChannelsLabelAndUnknown : Obligations.EncodeChannelsLabelAndUnknown := by
  refine ⟨fun s ch hissued => ?_, fun s label hissued => ?_, fun s t bytes hissued => ?_⟩
  · exact exec_encode_guarded hissued rfl rfl (channelsOk_iff ch) rfl
  · exact exec_encode_guarded hissued rfl rfl (labelOk_iff _ label) rfl
  · exact exec_encode_guarded hissued rfl rfl (fits_iff _ bytes) rfl

/-! ### The grid of a field -/

theorem scaled_of_scale {f : Field} {scale offset : Rat} (hf : f.scale = some ⟨scale, offset⟩) (hs : scale ≠ 0) :
    f.Scaled f.width.lo f.width.hi scale offset := by
  refine ⟨holds_iff f, fun n => by simp [Field.physical, hf], fun v n => ?_⟩
  have hgrid : (v - offset) / scale = n ↔ v = n * scale + offset := by
    rw [div_eq_iff hs, sub_eq_iff_eq_add]
  rw [← hgrid, ← and_assoc, ← holds_iff]
  simp only [Field.ofPhysical, hf]
  generalize (v - offset) / scale = q
  constructor
  · intro h
    split at h
    · rename_i hq
      simp only [Bool.and_eq_true, decide_eq_true_eq] at hq
      cases h
      exact ⟨hq.2, (Rat.den_eq_one_iff q).mp hq.1 |>.symm⟩
    · cases h
  · rintro ⟨hn, rfl⟩
    simp [hn]

theorem unscaled_of_scale {f : Field} (hf : f.scale = none) : f.Unscaled f.width.lo f.width.hi :=
  ⟨holds_iff f, fun n => by simp [Field.physical, hf], fun v => by simp [Field.ofPhysical, hf]⟩

/-- Settles O43: `scaled_of_scale` and `unscaled_of_scale` at every field. -/
theorem physicalValueEncodableExactlyOnGrid : Obligations.PhysicalValueEncodableExactlyOnGrid := by
  refine ⟨?_, ?_, ?_, ?_, ?_, ?_, ?_, unscaled_of_scale rfl, unscaled_of_scale rfl, unscaled_of_scale rfl, ?_, ?_,
    ?_, ?_, ?_, ?_, ?_, ?_, ?_, ?_, ?_, ?_, ?_⟩ <;> exact scaled_of_scale rfl (by norm_num)

/-! ### Presented records -/

/-- The exact physical value of a raw value within the width stands for that raw value. -/
theorem toRaw_present_scaled {f : Field} {scale offset : Rat} {n : Int} (hf : f.scale = some ⟨scale, offset⟩)
    (hs : scale ≠ 0) (hn : f.holds n = true) : Val.toRaw f (f.present n) = some n := by
  obtain ⟨-, hphysical, hencodable⟩ := scaled_of_scale hf hs
  obtain ⟨hlo, hhi⟩ := (holds_iff f n).mp hn
  simp only [Field.present, hphysical, Val.toRaw]
  exact (hencodable _ n).mpr ⟨hlo, hhi, rfl⟩

/-- A field with no scale is presented by its raw value. -/
theorem toRaw_present_unscaled {f : Field} (hf : f.scale = none) (n : Int) : Val.toRaw f (f.present n) = some n := by
  simp [Field.present, Field.physical, hf, Val.toRaw]

theorem linkStats_present_toRaw {r : LinkStats Int} (h : (LinkStats.zip Field.holds LinkStats.fields r).all = true) :
    Record.toRaw (Record.present (.linkStats r)) = some (.linkStats r) := by
  have hone : (1 : Rat) ≠ 0 := one_ne_zero
  have hneg : (-1 : Rat) ≠ 0 := by norm_num
  simp only [LinkStats.all, LinkStats.zip, Bool.and_eq_true, and_assoc] at h
  obtain ⟨h1, h2, h3, h4, h5, h6, h7, h8, h9, h10⟩ := h
  simp only [Record.present, Record.toRaw, LinkStats.zip, toRaw_present_scaled rfl hneg h1,
    toRaw_present_scaled rfl hneg h2, toRaw_present_scaled rfl hone h3, toRaw_present_scaled rfl hone h4,
    toRaw_present_unscaled (f := LinkStats.fields.activeAnt) rfl,
    toRaw_present_unscaled (f := LinkStats.fields.rfMode) rfl,
    toRaw_present_unscaled (f := LinkStats.fields.upTxPower) rfl, toRaw_present_scaled rfl hneg h8,
    toRaw_present_scaled rfl hone h9, toRaw_present_scaled rfl hone h10]
  rfl

theorem gps_present_toRaw {r : Gps Int} (h : (Gps.zip Field.holds Gps.fields r).all = true) :
    Record.toRaw (Record.present (.gps r)) = some (.gps r) := by
  have hone : (1 : Rat) ≠ 0 := one_ne_zero
  simp only [Gps.all, Gps.zip, Bool.and_eq_true, and_assoc] at h
  obtain ⟨h1, h2, h3, h4, h5, h6⟩ := h
  simp only [Record.present, Record.toRaw, Gps.zip, toRaw_present_scaled rfl (by norm_num) h1,
    toRaw_present_scaled rfl (by norm_num) h2, toRaw_present_scaled rfl (by norm_num) h3,
    toRaw_present_scaled rfl (by norm_num) h4, toRaw_present_scaled rfl hone h5, toRaw_present_scaled rfl hone h6]
  rfl

theorem battery_present_toRaw {r : Battery Int} (h : (Battery.zip Field.holds Battery.fields r).all = true) :
    Record.toRaw (Record.present (.battery r)) = some (.battery r) := by
  have hone : (1 : Rat) ≠ 0 := one_ne_zero
  simp only [Battery.all, Battery.zip, Bool.and_eq_true, and_assoc] at h
  obtain ⟨h1, h2, h3, h4⟩ := h
  simp only [Record.present, Record.toRaw, Battery.zip, toRaw_present_scaled rfl (by norm_num) h1,
    toRaw_present_scaled rfl (by norm_num) h2, toRaw_present_scaled rfl hone h3, toRaw_present_scaled rfl hone h4]
  rfl

theorem attitude_present_toRaw {r : Attitude Int} (h : (Attitude.zip Field.holds Attitude.fields r).all = true) :
    Record.toRaw (Record.present (.attitude r)) = some (.attitude r) := by
  simp only [Attitude.all, Attitude.zip, Bool.and_eq_true, and_assoc] at h
  obtain ⟨h1, h2, h3⟩ := h
  simp only [Record.present, Record.toRaw, Attitude.zip, toRaw_present_scaled rfl (by norm_num) h1,
    toRaw_present_scaled rfl (by norm_num) h2, toRaw_present_scaled rfl (by norm_num) h3]
  rfl

/-- A record presented by its exact physical values stands for the record (43_payload_codec.md rule R206). -/
theorem present_toRaw {lenMax : Nat} {e : Event} (h : Record.inWidths lenMax e = true) : e.present.toRaw = some e := by
  cases e with
  | channels _ => rfl
  | linkStats _ => exact linkStats_present_toRaw h
  | gps _ => exact gps_present_toRaw h
  | battery _ => exact battery_present_toRaw h
  | attitude _ => exact attitude_present_toRaw h
  | flightMode _ => rfl
  | unknown _ _ => rfl

/-- Settles O44: a presented record stands for the record itself (`present_toRaw`), as its raw fields do. -/
theorem encodingExactPhysicalValuesIsEncodingRaw : Obligations.EncodingExactPhysicalValuesIsEncodingRaw := by
  intro s r hissued hwidths
  obtain ⟨t, p, henc⟩ := encodeRaw_ok hwidths
  exact ⟨t, p, exec_encode_raw hissued (present_toRaw hwidths) henc, exec_encode_raw hissued (asRaw_toRaw r) henc⟩

/-! ### Physical values that give no raw field -/

theorem val_toRaw_eq_none_iff (f : Field) (x : Val) :
    Val.toRaw f x = none ↔ ∃ v, x = .physical v ∧ f.ofPhysical v = none := by
  cases x <;> simp [Val.toRaw]

/-- A chain that fails the same way from every value fails at its first value or after it. -/
theorem bind_eq_none_iff_of {α β : Type} {o : Option α} {f : α → Option β} {P : Prop} (h : ∀ a, f a = none ↔ P) :
    o.bind f = none ↔ o = none ∨ P := by
  cases o <;> simp [h]

theorem linkStats_sequence_eq_none_iff {α : Type} (r : LinkStats (Option α)) : r.sequence = none ↔ none ∈ r.toList := by
  simp only [LinkStats.toList, List.mem_cons, List.not_mem_nil, eq_comm (a := (none : Option α))]
  exact bind_eq_none_iff_of fun _ => bind_eq_none_iff_of fun _ => bind_eq_none_iff_of fun _ =>
    bind_eq_none_iff_of fun _ => bind_eq_none_iff_of fun _ => bind_eq_none_iff_of fun _ =>
    bind_eq_none_iff_of fun _ => bind_eq_none_iff_of fun _ => bind_eq_none_iff_of fun _ =>
    bind_eq_none_iff_of fun _ => iff_of_false (Option.some_ne_none _) not_false

theorem gps_sequence_eq_none_iff {α : Type} (r : Gps (Option α)) : r.sequence = none ↔ none ∈ r.toList := by
  simp only [Gps.toList, List.mem_cons, List.not_mem_nil, eq_comm (a := (none : Option α))]
  exact bind_eq_none_iff_of fun _ => bind_eq_none_iff_of fun _ => bind_eq_none_iff_of fun _ =>
    bind_eq_none_iff_of fun _ => bind_eq_none_iff_of fun _ => bind_eq_none_iff_of fun _ =>
    iff_of_false (Option.some_ne_none _) not_false

theorem battery_sequence_eq_none_iff {α : Type} (r : Battery (Option α)) : r.sequence = none ↔ none ∈ r.toList := by
  simp only [Battery.toList, List.mem_cons, List.not_mem_nil, eq_comm (a := (none : Option α))]
  exact bind_eq_none_iff_of fun _ => bind_eq_none_iff_of fun _ => bind_eq_none_iff_of fun _ =>
    bind_eq_none_iff_of fun _ => iff_of_false (Option.some_ne_none _) not_false

theorem attitude_sequence_eq_none_iff {α : Type} (r : Attitude (Option α)) : r.sequence = none ↔ none ∈ r.toList := by
  simp only [Attitude.toList, List.mem_cons, List.not_mem_nil, eq_comm (a := (none : Option α))]
  exact bind_eq_none_iff_of fun _ => bind_eq_none_iff_of fun _ => bind_eq_none_iff_of fun _ =>
    iff_of_false (Option.some_ne_none _) not_false

/-- An operand stands for no raw record exactly when one of its numeric fields gives no raw value. -/
theorem record_toRaw_eq_none_iff_mem (r : Operand) :
    r.toRaw = none ↔ none ∈ r.numericFields.map fun x => Val.toRaw x.1 x.2 := by
  cases r with
  | channels _ => simp [Record.toRaw, Record.numericFields]
  | linkStats r => exact Option.map_eq_none_iff.trans (linkStats_sequence_eq_none_iff _)
  | gps r => exact Option.map_eq_none_iff.trans (gps_sequence_eq_none_iff _)
  | battery r => exact Option.map_eq_none_iff.trans (battery_sequence_eq_none_iff _)
  | attitude r => exact Option.map_eq_none_iff.trans (attitude_sequence_eq_none_iff _)
  | flightMode _ => simp [Record.toRaw, Record.numericFields]
  | unknown _ _ => simp [Record.toRaw, Record.numericFields]

theorem record_toRaw_eq_none_iff (r : Operand) :
    r.toRaw = none ↔ ∃ f v, (f, Val.physical v) ∈ r.numericFields ∧ f.ofPhysical v = none := by
  rw [record_toRaw_eq_none_iff_mem, List.mem_map]
  constructor
  · rintro ⟨⟨f, x⟩, hmem, hnone⟩
    obtain ⟨v, rfl, hv⟩ := (val_toRaw_eq_none_iff f x).mp hnone
    exact ⟨f, v, hmem, hv⟩
  · rintro ⟨f, v, hmem, hv⟩
    exact ⟨(f, .physical v), hmem, hv⟩

/-- The encoder of raw records has other reasons to refuse. -/
theorem encodeRaw_ne_notRepresentable (c : Config) (e : Event) : encodeRaw c e ≠ .error .notRepresentable := by
  have hguard : ∀ {ok : Bool} {why : Refusal} {p : List Byte} (t : Byte), why ≠ .notRepresentable →
      (orRefuse ok why p).map (fun p => (t, p)) ≠ .error .notRepresentable := by
    intro ok why p t hwhy h
    cases ok
    · exact hwhy (Except.error.inj h)
    · cases h
  cases e <;> exact hguard _ (by decide)

theorem exec_encode_notRepresentable_iff {s : State} {r : Operand} (hissued : s.issued = s.config) :
    exec (.encode r) s = .refused .notRepresentable ↔ r.toRaw = none := by
  rcases hraw : r.toRaw with _ | e
  · exact iff_of_true (exec_encode_error hissued (by simp only [encodePayload, hraw])) rfl
  · refine iff_of_false (fun hrefused => ?_) (Option.some_ne_none e)
    rcases henc : encodeRaw s.config e with why | ⟨t, p⟩
    · rw [exec_encode_raw_error hissued hraw henc] at hrefused
      cases hrefused
      exact encodeRaw_ne_notRepresentable _ _ henc
    · rw [exec_encode_raw hissued hraw henc] at hrefused
      cases hrefused

/-! ### A voltage in volts -/

theorem voltage_ofPhysical_iff (v : Rat) (n : Int) :
    Battery.fields.voltage.ofPhysical v = some n ↔ 0 ≤ n ∧ n ≤ 65535 ∧ v = (n : Rat) / 10 := by
  obtain ⟨-, -, hgrid⟩ := scaled_of_scale (f := Battery.fields.voltage) rfl (by norm_num)
  rw [hgrid, show (n : Rat) * (1 / 10) + 0 = (n : Rat) / 10 by ring]
  rfl

/-- A battery request that gives the voltage in volts and its other fields as raw zeros. -/
theorem voltage_toRaw (v : Rat) : Record.toRaw (.battery ⟨.physical v, .raw 0, .raw 0, .raw 0⟩) =
    (Battery.fields.voltage.ofPhysical v).map fun n => .battery ⟨n, 0, 0, 0⟩ := by
  simp only [Record.toRaw, Battery.zip, Battery.sequence, Val.toRaw]
  cases Battery.fields.voltage.ofPhysical v <;> rfl

/-- Settles O45: a request is refused so exactly when it stands for no raw record (`exec_encode_notRepresentable_iff`),
that is when a numeric field gives no raw value (`record_toRaw_eq_none_iff`); for a voltage `voltage_ofPhysical_iff` is
its grid. -/
theorem voltageOffTheGridIsRefused : Obligations.VoltageOffTheGridIsRefused := by
  refine ⟨fun s v hissued => ⟨fun n h0 h1 hv => ?_, fun hoff => ?_⟩,
    fun s r hissued hnone => (exec_encode_notRepresentable_iff hissued).mpr hnone,
    fun s r hissued => (exec_encode_notRepresentable_iff hissued).trans (record_toRaw_eq_none_iff r)⟩
  · have hraw : Record.toRaw (.battery ⟨.physical v, .raw 0, .raw 0, .raw 0⟩) = some (.battery ⟨n, 0, 0, 0⟩) := by
      rw [voltage_toRaw, (voltage_ofPhysical_iff v n).mpr ⟨h0, h1, hv⟩]
      rfl
    have hsame : Record.toRaw (.battery ⟨.raw n, .raw 0, .raw 0, .raw 0⟩) = some (.battery ⟨n, 0, 0, 0⟩) := rfl
    rw [exec_encode_congr hissued (hraw.trans hsame.symm)]
    exact (encodeBattery s n 0 0 0 hissued).1 (by omega)
  · rw [exec_encode_notRepresentable_iff hissued, voltage_toRaw, Option.map_eq_none_iff,
      Option.eq_none_iff_forall_ne_some]
    intro n hn
    obtain ⟨h0, h1, hv⟩ := (voltage_ofPhysical_iff v n).mp hn
    exact hoff n h0 h1 hv

end Sys2Proof.Proofs.Encode
end

section
/-! PROOFS. What the CRC computes and which errors it detects (41_crc.md): the table form, linearity, bit parity, and
the Horner rule that ties CRC8 to the number its bytes stand for, each with the statements that follow from it. -/
namespace Sys2Proof.Proofs.CrcDetection

open Sys2Proof Sys2Proof.Machine Sys2Proof.Proofs.Crc Sys2Proof.Proofs.RoundTrip

/-! ### One byte more -/

@[simp] theorem crc8_nil : crc8 [] = 0#8 := rfl

theorem crc8_append (s : List Byte) (b : Byte) : crc8 (s ++ [b]) = crcByte (crc8 s) b := by simp [crc8]

/-- CRC8 divides the exclusive or of the remainder and the byte by 8 bits. -/
theorem crcByte_eq (c b : Byte) : crcByte c b = crcBit^[8] (c ^^^ b) := rfl

theorem crcByte_zero_left (c b : Byte) : crcByte c b = crcByte 0#8 (c ^^^ b) := by simp [crcByte_eq]

/-! ### The table -/

theorem crcTable_getElem? (i : Byte) : crcTable[i.toNat]? = some (crcByte 0#8 i) := by
  revert i
  decide +kernel

theorem crcTable_getD (i : Byte) : crcTable.getD i.toNat 0#8 = crcByte 0#8 i := by
  rw [List.getD, crcTable_getElem?, Option.getD_some]

theorem crcByTable_eq (s : List Byte) : crcByTable s = crc8 s := by
  simp only [crcByTable, crcTable_getD, ← crcByte_zero_left, crc8]

/-! ### The remainder is lost at no step -/

theorem crcBit_eq_zero_iff (c : Byte) : crcBit c = 0#8 ↔ c = 0#8 := by
  revert c
  decide +kernel

theorem crcBit_injective : Function.Injective crcBit := by
  intro a b h
  rw [← BitVec.xor_eq_zero_iff, ← crcBit_eq_zero_iff, crcBit_xor, BitVec.xor_eq_zero_iff]
  exact h

theorem crcBit_iterate_injective (n : Nat) : Function.Injective crcBit^[n] := crcBit_injective.iterate n

theorem crcBit_iterate_zero (n : Nat) : crcBit^[n] 0#8 = 0#8 := Function.iterate_fixed rfl n

theorem crcBit_iterate_xor (n : Nat) (a b : Byte) : crcBit^[n] (a ^^^ b) = crcBit^[n] a ^^^ crcBit^[n] b := by
  induction n generalizing a b with
  | zero => rfl
  | succ n ih => rw [Function.iterate_succ_apply, crcBit_xor, ih]; rfl

theorem crcBit_iterate_eq_zero_iff (n : Nat) (c : Byte) : crcBit^[n] c = 0#8 ↔ c = 0#8 := by
  conv_lhs => rw [← crcBit_iterate_zero n]
  exact (crcBit_iterate_injective n).eq_iff

theorem crcByte_eq_zero_iff (c b : Byte) : crcByte c b = 0#8 ↔ c = b := by
  rw [crcByte_eq, crcBit_iterate_eq_zero_iff, BitVec.xor_eq_zero_iff]

/-! ### Linearity -/

theorem foldl_crcByte_xor : ∀ {a b : List Byte}, a.length = b.length → ∀ x y : Byte,
    (xorBytes a b).foldl crcByte (x ^^^ y) = a.foldl crcByte x ^^^ b.foldl crcByte y
  | [], [], _, _, _ => rfl
  | v :: a, w :: b, hlen, x, y => by
    have hrest := foldl_crcByte_xor (a := a) (b := b) (by simpa using hlen) (crcByte x v) (crcByte y w)
    rw [← crcByte_xor] at hrest
    exact hrest

/-- Settles O30: byte by byte, `crcByte` is linear in the remainder and the byte together. -/
theorem crcIsLinear : Obligations.CrcIsLinear := fun _ _ hlen => foldl_crcByte_xor hlen 0#8 0#8

/-- An error pattern over valid bytes is missed exactly when its own CRC8 is zero. -/
theorem crc8_xorBytes {w e : List Byte} (hlen : e.length = w.length) (hw : crc8 w = 0#8) :
    crc8 (xorBytes w e) = crc8 e := by
  rw [crcIsLinear w e hlen.symm, hw, BitVec.zero_xor]

/-! ### Bit parity: x + 1 divides the polynomial -/

/-- How many bits of a byte are set. -/
def bitCount (b : Byte) : Nat := (List.range 8).countP fun i => b.getLsbD i

theorem countP_xor_mod_two {α : Type} (f g : α → Bool) (l : List α) :
    l.countP (fun i => f i ^^ g i) % 2 = (l.countP f + l.countP g) % 2 := by
  induction l with
  | nil => rfl
  | cons i l ih =>
    simp only [List.countP_cons]
    cases f i <;> cases g i <;> simp <;> omega

theorem bitCount_xor (a b : Byte) : bitCount (a ^^^ b) % 2 = (bitCount a + bitCount b) % 2 := by
  simp only [bitCount, BitVec.getLsbD_xor]
  exact countP_xor_mod_two _ _ _

/-- A bit of the division keeps the parity: the polynomial has an even number of terms. -/
theorem bitCount_crcBit (c : Byte) : bitCount (crcBit c) % 2 = bitCount c % 2 := by
  revert c
  decide +kernel

theorem bitCount_crcBit_iterate (n : Nat) (c : Byte) : bitCount (crcBit^[n] c) % 2 = bitCount c % 2 := by
  induction n generalizing c with
  | zero => rfl
  | succ n ih => rw [Function.iterate_succ_apply, ih, bitCount_crcBit]

theorem weight_append (s : List Byte) (b : Byte) : weight (s ++ [b]) = weight s + bitCount b := by
  simp [weight, bitCount]

theorem bitCount_crc8 (s : List Byte) : bitCount (crc8 s) % 2 = weight s % 2 := by
  induction s using List.reverseRecOn with
  | nil => rfl
  | append_singleton s b ih =>
    rw [crc8_append, crcByte_eq, bitCount_crcBit_iterate, bitCount_xor, weight_append, Nat.add_mod, ih, ← Nat.add_mod]

/-- Settles O31: CRC8 keeps the parity of the error pattern (`bitCount_crc8`), and zero has an even number of bits. -/
theorem oddWeightErrorsAreDetected : Obligations.OddWeightErrorsAreDetected := by
  intro w e hlen hw hodd hmissed
  rw [crc8_xorBytes hlen hw] at hmissed
  rw [← bitCount_crc8, hmissed] at hodd
  exact absurd hodd (by decide)

/-! ### CRC8 of the number its bytes stand for -/

/-- The number that bytes stand for, big-endian. -/
def value (s : List Byte) : Nat := beU s 0 s.length

@[simp] theorem value_nil : value [] = 0 := rfl

theorem value_append (s : List Byte) (b : Byte) : value (s ++ [b]) = value s * 256 + b.toNat := beU_append s b

/-- Every number below 2^(8n) is the value of n bytes. -/
theorem exists_value_eq (n : Nat) : ∀ {v : Nat}, v < 2 ^ (8 * n) → ∃ s : List Byte, s.length = n ∧ value s = v := by
  induction n with
  | zero => intro v hv; exact ⟨[], rfl, by simp at hv; simp [hv]⟩
  | succ n ih =>
    intro v hv
    have hfront : v / 256 < 2 ^ (8 * n) := by
      rw [Nat.div_lt_iff_lt_mul (by decide)]
      simpa [Nat.mul_add, Nat.pow_add] using hv
    obtain ⟨s, hs, hvalue⟩ := ih hfront
    refine ⟨s ++ [BitVec.ofNat 8 v], by simp [hs], ?_⟩
    rw [value_append, hvalue, BitVec.toNat_ofNat]
    omega

/-- Shifting a bit into a byte: the bit that leaves is bit 7, which the division answers with the polynomial. -/
theorem ofNat_shiftIn (b : Byte) (carry : Bool) : BitVec.ofNat 8 (2 * b.toNat + carry.toNat) =
    crcBit b ^^^ crcBit^[8] (BitVec.ofNat 8 b.msb.toNat) ^^^ BitVec.ofNat 8 carry.toNat := by
  revert b carry
  decide +kernel

theorem toNat_div_128 (b : Byte) : b.toNat / 128 = b.msb.toNat := by
  revert b
  decide +kernel

/-- The Horner rule: doubling the number and adding a bit is one bit of the division. -/
theorem crc8_double (carry : Bool) : ∀ {s s' : List Byte}, s'.length = s.length → value s' = 2 * value s + carry.toNat →
    crc8 s' = crcBit (crc8 s) ^^^ crcBit^[8] (BitVec.ofNat 8 carry.toNat) := by
  intro s
  induction s using List.reverseRecOn generalizing carry with
  | nil =>
    intro s' hlen hvalue
    rw [List.length_nil, List.length_eq_zero_iff] at hlen
    subst hlen
    cases carry
    · decide
    · simp at hvalue
  | append_singleton s b ih =>
    intro s' hlen hvalue
    obtain ⟨s', b', rfl⟩ : ∃ l x, s' = l ++ [x] :=
      ⟨s'.dropLast, s'.getLast (by rintro rfl; simp at hlen), (List.dropLast_append_getLast _).symm⟩
    rw [value_append, value_append] at hvalue
    have hmsb := toNat_div_128 b
    have hb' := b'.isLt
    have hcarry := Bool.toNat_le carry
    have hfront := ih b.msb (s' := s') (by simpa using hlen) (by omega)
    have hlast : b' = BitVec.ofNat 8 (2 * b.toNat + carry.toNat) := BitVec.eq_of_toNat_eq (by simp; omega)
    have hregister : crc8 s' ^^^ b' = crcBit (crc8 s ^^^ b) ^^^ BitVec.ofNat 8 carry.toNat := by
      rw [hfront, hlast, ofNat_shiftIn, crcBit_xor]
      generalize crcBit^[8] (BitVec.ofNat 8 b.msb.toNat) = poly
      rw [show crcBit (crc8 s) ^^^ poly ^^^ (crcBit b ^^^ poly ^^^ BitVec.ofNat 8 carry.toNat) =
        crcBit (crc8 s) ^^^ crcBit b ^^^ BitVec.ofNat 8 carry.toNat ^^^ (poly ^^^ poly) by ac_rfl]
      simp
    rw [crc8_append, crc8_append, crcByte_eq, crcByte_eq, hregister, crcBit_iterate_xor, ← Function.iterate_succ_apply,
      Function.iterate_succ_apply']

/-- A number of one byte, whatever leading zero bytes stand before it. -/
theorem crc8_of_value_lt {s : List Byte} (h : value s < 256) : crc8 s = crcBit^[8] (BitVec.ofNat 8 (value s)) := by
  induction s using List.reverseRecOn with
  | nil => decide
  | append_singleton s b ih =>
    rw [value_append] at h ⊢
    have hfront : value s = 0 := by omega
    have hzero : crc8 s = 0#8 := by
      rw [ih (by omega), hfront]
      exact crcBit_iterate_zero 8
    rw [crc8_append, hzero, crcByte_eq, hfront]
    simp

theorem value_lt (s : List Byte) : value s < 2 ^ (8 * s.length) := beU_lt s 0 s.length (by omega)

/-- Multiplying the number by 2^k is k bits of the division. -/
theorem crc8_shift (m k : Nat) : ∀ {s : List Byte}, value s = m * 2 ^ k →
    ∃ s₀ : List Byte, s₀.length = s.length ∧ value s₀ = m ∧ crc8 s = crcBit^[k] (crc8 s₀) := by
  induction k with
  | zero => intro s hs; exact ⟨s, rfl, by simpa using hs, rfl⟩
  | succ k ih =>
    intro s hs
    have hhalf : value s = 2 * (m * 2 ^ k) := by rw [hs]; ring
    obtain ⟨s', hlen', hs'⟩ := exists_value_eq s.length (v := m * 2 ^ k) (by have := value_lt s; omega)
    obtain ⟨s₀, hlen₀, hs₀, hcrc⟩ := ih hs'
    have hdouble := crc8_double false hlen'.symm (by rw [hhalf, hs']; rfl)
    refine ⟨s₀, hlen₀.trans hlen', hs₀, ?_⟩
    rw [hdouble, hcrc, show BitVec.ofNat 8 false.toNat = 0#8 from rfl, crcBit_iterate_zero, BitVec.xor_zero]
    exact (Function.iterate_succ_apply' crcBit k _).symm

/-- Settles O32: the burst is m shifted k bits (`crc8_shift`), m stands in one byte, and no bit of the division turns a
remainder other than zero into zero. -/
theorem burstErrorsAreDetected : Obligations.BurstErrorsAreDetected := by
  intro w e m k hlen hw hpos hm hburst hmissed
  rw [crc8_xorBytes hlen hw] at hmissed
  obtain ⟨s₀, -, hs₀, hcrc⟩ := crc8_shift m k (s := e) hburst
  rw [hcrc, crcBit_iterate_eq_zero_iff, crc8_of_value_lt (by omega), crcBit_iterate_eq_zero_iff, hs₀] at hmissed
  have hzero := congrArg BitVec.toNat hmissed
  simp at hzero
  omega

/-! ### Two bits -/

/-- The division, begun on the remainder of a single bit, comes back to it after 93 bits and not before. -/
theorem minimalPeriod_crcBit : Function.minimalPeriod crcBit (crcBit^[8] 1#8) = 93 := by
  have hperiodic : Function.IsPeriodicPt crcBit 93 (crcBit^[8] 1#8) := by decide +kernel
  have hsooner : ∀ n ∈ Nat.properDivisors 93, ¬ Function.IsPeriodicPt crcBit n (crcBit^[8] 1#8) := by decide +kernel
  by_contra hne
  have hproper := Nat.mem_properDivisors.mpr ⟨hperiodic.minimalPeriod_dvd,
    lt_of_le_of_ne (hperiodic.minimalPeriod_le (by decide)) hne⟩
  exact hsooner _ hproper (Function.isPeriodicPt_minimalPeriod _ _)

/-- CRC8 of two bits, the lower one being bit 0. -/
theorem crc8_twoBits {s : List Byte} {d : Nat} (hs : value s = 2 ^ (d + 1) + 1) :
    crc8 s = crcBit^[d + 1] (crcBit^[8] 1#8) ^^^ crcBit^[8] 1#8 := by
  have hlt := value_lt s
  have hdouble : value s = 2 * (1 * 2 ^ d) + 1 := by rw [hs]; ring
  obtain ⟨s', hlen', hs'⟩ := exists_value_eq s.length (v := 1 * 2 ^ d) (by omega)
  obtain ⟨s₀, -, hs₀, hcrc⟩ := crc8_shift 1 d hs'
  have hbit := crc8_double true hlen'.symm (by rw [hdouble, hs']; rfl)
  rw [hbit, hcrc, crc8_of_value_lt (by omega), hs₀]
  exact congrArg (· ^^^ crcBit^[8] 1#8) (Function.iterate_succ_apply' crcBit d _).symm

/-- Settles O33: the lower bit's distance from the end does not matter (`crc8_shift`), and the two bits cancel exactly
when their distance is a period of the division, whose least period is 93. -/
theorem twoBitErrorsMissedExactlyAt93 : Obligations.TwoBitErrorsMissedExactlyAt93 := by
  intro w e i j hlen hw hij hbits
  obtain ⟨d, rfl⟩ : ∃ d, i = j + (d + 1) := ⟨i - j - 1, by omega⟩
  obtain ⟨s₀, -, hs₀, hcrc⟩ := crc8_shift (2 ^ (d + 1) + 1) j (s := e) (by rw [value, hbits]; ring)
  rw [crc8_xorBytes hlen hw, hcrc, crcBit_iterate_eq_zero_iff, crc8_twoBits hs₀, BitVec.xor_eq_zero_iff,
    Nat.add_sub_cancel_left, ← minimalPeriod_crcBit]
  exact Function.isPeriodicPt_iff_minimalPeriod_dvd

/-! ### The statements about CRC8 and CRC_CHECK -/

/-- Settles O25: `crcTable_getElem?` is the table entry by entry, and the two forms agree byte by byte. -/
theorem crc8IsTheTableForm : Obligations.Crc8IsTheTableForm := by
  refine ⟨fun s x hissued => ?_, crcTable_getElem?⟩
  rw [exec_crc8 x hissued, crcByTable_eq]

/-- Settles O26: a closed run. -/
theorem crc8CheckValue : Obligations.Crc8CheckValue := by
  unfold Obligations.Crc8CheckValue
  decide +kernel

/-- Settles O27: the last byte cancels the remainder (`crcByte_self`). -/
theorem crcResidueIsZero : Obligations.CrcResidueIsZero := fun s => by rw [crc8_append, crcByte_self]

/-- Settles O28: one byte more leaves a zero remainder exactly when it is the remainder before it
(`crcByte_eq_zero_iff`). -/
theorem crcCheckIsTheResidueTest : Obligations.CrcCheckIsTheResidueTest := by
  intro s t c p hissued
  refine ⟨_, exec_crcCheck t p c hissued, crcCheck_iff t p c, ?_⟩
  rw [crc8_append, crcByte_eq_zero_iff]
  exact crcCheck_iff t p c

end Sys2Proof.Proofs.CrcDetection
end

section
/-! PROOFS. The whole machine: what an instruction that answers can have done, said once (`Effect`), what a step can do,
and the statements about frames, growth and the invariant that follow. -/
namespace Sys2Proof.Proofs.Steps

open Sys2Proof Sys2Proof.Machine Sys2Proof.Proofs.Crc Sys2Proof.Proofs.Channels Sys2Proof.Proofs.FrameEncoder
open Sys2Proof.Proofs.CrcDetection Sys2Proof.Proofs.FrameFormat Sys2Proof.Proofs.RoundTrip Sys2Proof.Proofs.Stream
open Sys2Proof.Proofs.Operations

/-! ### The effect of an instruction -/

/-- The pure operations and READ_DIAG (20_memory.md rule R59). -/
def onlyAnswers : Instr → Bool
  | .crc8 _ | .crcCheck _ _ _ | .unpack _ | .pack _ | .decode _ _ | .encode _ | .readDiag => true
  | _ => false

/-- The requests to the frame encoder (44_frame_encoder.md). -/
def transmits : Instr → Bool
  | .frameEncode _ _ | .encodeRecord _ => true
  | _ => false

/-- The states an instruction can leave, by its kind. -/
inductive Effect (s : State) : Instr → State → Prop where
  | deliver {i : Instr} {t : Byte} {p : List Byte} (hi : i.typeAndPayload = some (t, p)) :
      Effect s i (s.delivered (decodePayload s.config t p))
  | pushByte (b : Byte) : Effect s (.pushByte b) (afterPush b s)
  | pushChunk (bs : List Byte) : Effect s (.pushChunk bs) { s with
      block    := (pushAll s.config bs s.block).block
      events   := s.events ++ (pushAll s.config bs s.block).emitted
      returned := .chunkStatus (chunkStatus bs.length (pushAll s.config bs s.block)) }
  | answer {i : Instr} (hi : onlyAnswers i = true) (r : Returned) : Effect s i { s with returned := r }
  | transmit {i : Instr} (hi : transmits i = true) (t : Byte) {p : List Byte} (hfits : s.config.fits p = true) :
      Effect s i { s with
        sent     := s.sent ++ [s.config.frameBytes t p]
        returned := .frame (s.config.frameBytes t p) }
  | reset {cfg : Config} (hlegal : cfg.legal = true) :
      Effect s (.reset cfg) { s with block := Block.reset, config := cfg, issued := cfg, returned := .nothing }

theorem effect_of_sendFrame {s s' : State} {i : Instr} {t : Byte} {p : List Byte} (hi : transmits i = true)
    (h : sendFrame t p s = .next s') : Effect s i s' := by
  have hfits := fits_of_sendFrame h
  rw [sendFrame_eq, if_pos hfits] at h
  cases h
  exact .transmit hi t hfits

theorem issued_of_exec {s s' : State} {i : Instr} (h : exec i s = .next s') (hi : ∀ cfg, i ≠ .reset cfg) :
    s.issued = s.config := by
  by_contra hchanged
  rw [changedConfigurationIsRefused s i hi hchanged] at h
  cases h

/-- Whatever answers has one of the effects. -/
theorem effect_of_exec {s s' : State} {i : Instr} (h : exec i s = .next s') : Effect s i s' := by
  by_cases hreset : ∃ cfg, i = .reset cfg
  · obtain ⟨cfg, rfl⟩ := hreset
    change execReset cfg s = _ at h
    unfold execReset at h
    split at h
    · rename_i hlegal
      cases h
      exact .reset hlegal
    · cases h
  have hissued := issued_of_exec h fun cfg hi => hreset ⟨cfg, hi⟩
  by_cases hframe : ∃ t p, i.typeAndPayload = some (t, p)
  · obtain ⟨t, p, hi⟩ := hframe
    rw [exec_frameRow s i t p hissued hi] at h
    cases h
    exact .deliver hi
  cases i with
  | pushByte b => rw [exec_pushByte_afterPush b hissued] at h; cases h; exact .pushByte b
  | pushChunk bs => rw [exec_pushChunk bs hissued] at h; cases h; exact .pushChunk bs
  | crc8 x => rw [exec_crc8 x hissued] at h; cases h; exact .answer rfl _
  | crcCheck t p c => rw [exec_crcCheck t p c hissued] at h; cases h; exact .answer rfl _
  | unpack p => rw [exec_unpack p hissued] at h; cases h; exact .answer rfl _
  | decode t p => rw [exec_decode t p hissued] at h; cases h; exact .answer rfl _
  | readDiag => rw [exec_readDiag hissued] at h; cases h; exact .answer rfl _
  | pack ch =>
    rw [exec_pack_eq ch hissued] at h
    split at h
    · cases h; exact .answer rfl _
    · cases h
  | encode r =>
    rcases henc : encodePayload s.config r with why | ⟨t, p⟩
    · rw [exec_encode_error hissued henc] at h; cases h
    · rw [exec_encode_ok hissued henc] at h; cases h; exact .answer rfl _
  | frameEncode t p => rw [exec_frameEncode t p hissued] at h; exact effect_of_sendFrame rfl h
  | encodeRecord r =>
    rw [exec_encodeRecord s r hissued] at h
    rcases henc : encodePayload s.config r with why | ⟨t, p⟩
    · rw [henc] at h; cases h
    · rw [henc] at h; exact effect_of_sendFrame rfl h
  | reset cfg => exact absurd ⟨cfg, rfl⟩ hreset
  | _ => exact absurd ⟨_, _, rfl⟩ hframe

/-- No instruction touches the queue or takes anything back from the egress sequences (20_memory.md rules R60, R61). -/
theorem Effect.grows {s t : State} {i : Instr} (h : Effect s i t) :
    t.host = s.host ∧ s.events <+: t.events ∧ s.sent <+: t.sent := by
  cases h with
  | deliver _ => exact ⟨rfl, List.prefix_append _ _, List.prefix_rfl⟩
  | pushByte _ => exact ⟨rfl, List.prefix_append _ _, List.prefix_rfl⟩
  | pushChunk _ => exact ⟨rfl, List.prefix_append _ _, List.prefix_rfl⟩
  | answer _ _ => exact ⟨rfl, List.prefix_rfl, List.prefix_rfl⟩
  | transmit _ _ _ => exact ⟨rfl, List.prefix_rfl, List.prefix_append _ _⟩
  | reset _ => exact ⟨rfl, List.prefix_rfl, List.prefix_rfl⟩

/-- Only RESET puts a configuration in force. -/
theorem Effect.config {s t : State} {i : Instr} (h : Effect s i t) :
    t.config = s.config ∨ ∃ cfg, i = .reset cfg ∧ cfg.legal = true ∧ t.config = cfg := by
  cases h with
  | reset hlegal => exact .inr ⟨_, rfl, hlegal, rfl⟩
  | _ => exact .inl rfl

/-! ### The effect of a step -/

/-- A step changes nothing, only leaves the queue, or has the effect of the instruction it fetches. -/
theorem step_cases {s t : State} (h : step s = .next t) :
    t = s ∨ fetch s = .nothingToPush t ∨ ∃ i u, fetch s = .run i u ∧ Effect u i t := by
  unfold step at h
  split at h
  · cases h; exact .inl rfl
  · cases h; exact .inr (.inl ‹_›)
  · exact .inr (.inr ⟨_, _, ‹_›, effect_of_exec h⟩)

theorem instr_eq_reset {h : HostOp} {cfg : Config} (heq : h.instr = .reset cfg) : h = .reset cfg := by
  cases h <;> cases heq
  rfl

/-- A frame row that a step fetches has a payload that fits a frame. -/
theorem fits_of_fetch {s u : State} {i : Instr} (hf : fetch s = .run i u) {t : Byte} {p : List Byte}
    (hi : i.typeAndPayload = some (t, p)) : s.config.fits p = true := by
  obtain ⟨-, -, -, -, -, ⟨h, rfl, -⟩ | ⟨b, rfl⟩ | ⟨-, bytes, rest, hdec⟩⟩ := fetch_run hf
  · cases h <;> cases hi
  · cases hi
  · obtain ⟨t', p', hfits, rfl, -⟩ := decode_ok hdec
    rw [typeAndPayload_frameRow] at hi
    cases hi
    exact hfits

/-! ### The invariant -/

/-- The invariant speaks of four fields of the state. -/
theorem inv_congr {s u : State} (h : s.Inv) (hblock : u.block = s.block) (hconfig : u.config = s.config)
    (hevents : u.events = s.events) (hsent : u.sent = s.sent) : u.Inv := by
  obtain ⟨legal, quiet, overflow, events, sent⟩ := h
  exact ⟨hconfig ▸ legal, by rw [hconfig, hblock]; exact quiet, hblock ▸ overflow, hevents ▸ events, hsent ▸ sent⟩

theorem validFrame_frameBytes {c : Config} (t : Byte) {p : List Byte} (hfits : c.fits p = true) :
    validFrame (c.frameBytes t p) = true := by
  have hlen := frameLength_toNat hfits
  have hfit := (fits_iff c p).mp hfits
  have hmax := lenMax_le c
  have hresidue : crc8 (t :: (p ++ [crc8 (t :: p)])) = 0#8 := by
    simpa using crcResidueIsZero (t :: p)
  rw [frameBytes_eq]
  simp only [validFrame, hlen, hresidue, List.length_cons, List.length_append, List.length_nil]
  simp
  omega

/-- An instruction keeps the invariant, if its payload fits a frame when it is a frame row. -/
theorem Effect.keeps_inv {s t : State} {i : Instr} (h : Effect s i t) (hs : s.Inv)
    (hfits : ∀ {t p}, i.typeAndPayload = some (t, p) → s.config.fits p = true) : t.Inv := by
  obtain ⟨legal, quiet, overflow, events, sent⟩ := hs
  have hwidths : ∀ {e}, Record.inWidths s.config.lenMax e = true → Record.inWidths 62 e = true :=
    fun he => inWidths_mono (lenMax_le s.config) he
  cases h with
  | deliver hi =>
    refine ⟨legal, quiet, overflow, List.forall_mem_append.mpr ⟨events, ?_⟩, sent⟩
    simpa using hwidths (decodePayload_inWidths _ (hfits hi))
  | pushByte b =>
    have hpush := push_from_quiescent b legal quiet
    exact ⟨legal, push_quiescent _ b _, hpush.1.trans overflow,
      List.forall_mem_append.mpr ⟨events, fun e he => hwidths (push_emits_inWidths b legal quiet e he)⟩, sent⟩
  | pushChunk bs =>
    obtain ⟨quiet', overflow', -, widths⟩ := pushAll_invariant legal bs quiet
    exact ⟨legal, quiet', overflow'.trans overflow,
      List.forall_mem_append.mpr ⟨events, fun e he => hwidths (widths e he)⟩, sent⟩
  | answer _ _ => exact ⟨legal, quiet, overflow, events, sent⟩
  | transmit _ t hfit =>
    refine ⟨legal, quiet, overflow, events, List.forall_mem_append.mpr ⟨sent, ?_⟩⟩
    simpa using validFrame_frameBytes t hfit
  | reset hlegal => exact ⟨hlegal, rfl, rfl, events, sent⟩

/-! ### The statements -/

/-- A well-formed instruction is not refused: its operands are the ones its rule gives a meaning (60_exceptions.md rule
R256). -/
theorem exec_of_wellFormed {s : State} {i : Instr} (hissued : s.issued = s.config)
    (hwf : i.wellFormed s.config = true) : ∃ t, exec i s = .next t := by
  by_cases hframe : ∃ t p, i.typeAndPayload = some (t, p)
  · obtain ⟨t, p, hi⟩ := hframe
    exact ⟨_, exec_frameRow s i t p hissued hi⟩
  cases i with
  | pushByte b => exact ⟨_, exec_pushByte b hissued⟩
  | pushChunk bs => exact ⟨_, exec_pushChunk bs hissued⟩
  | crc8 x => exact ⟨_, exec_crc8 x hissued⟩
  | crcCheck t p c => exact ⟨_, exec_crcCheck t p c hissued⟩
  | unpack p => exact ⟨_, exec_unpack p hissued⟩
  | pack ch => exact ⟨_, exec_pack hissued ((channelsOk_iff ch).mp hwf)⟩
  | decode t p => exact ⟨_, exec_decode t p hissued⟩
  | encode r =>
    obtain ⟨t, p, henc⟩ := encodePayload_of_encodable hwf
    exact ⟨_, exec_encode_ok hissued henc⟩
  | frameEncode t p => exact ⟨_, frameEncode_transmits t hwf s rfl hissued⟩
  | encodeRecord r =>
    obtain ⟨t, p, -, -, hexec⟩ := encodeRecordCompletes s r hissued hwf
    exact ⟨_, hexec⟩
  | readDiag => exact ⟨_, exec_readDiag hissued⟩
  | reset cfg => exact ⟨_, (resetInitialisesTheBlock s cfg).1 ((legal_iff cfg).mp hwf)⟩
  | _ => exact absurd ⟨_, _, rfl⟩ hframe

/-- Settles O55: `exec_of_wellFormed` completes it and `Effect.grows` bounds what it did. -/
theorem wellFormedInstructionsComplete : Obligations.WellFormedInstructionsComplete := by
  intro s i hissued hwf
  obtain ⟨t, hexec⟩ := exec_of_wellFormed hissued hwf
  exact ⟨t, hexec, (effect_of_exec hexec).grows⟩

/-- Settles O56: by the effect's kind, which fixes the kinds of instruction that can have it. -/
theorem eachInstructionWritesOnlyItsOwn : Obligations.EachInstructionWritesOnlyItsOwn := by
  intro s t i hexec
  cases effect_of_exec hexec with
  | deliver hi => cases i <;> cases hi <;> exact ⟨rfl, _, rfl⟩
  | pushByte b => rfl
  | pushChunk bs => rfl
  | answer hi r => cases i <;> cases hi <;> rfl
  | transmit hi t hfits => cases i <;> cases hi <;> exact ⟨rfl, _, rfl⟩
  | reset hlegal => rfl

/-- Settles O57: only RESET's effect is on the configuration (`Effect.config`), and only a pending operation is a
RESET. -/
theorem configurationChangesOnlyAtReset : Obligations.ConfigurationChangesOnlyAtReset := by
  intro s t hstep
  obtain rfl | hf | ⟨i, u, hf, heffect⟩ := step_cases hstep
  · exact .inl rfl
  · exact .inl (fetch_nothing hf).2.1
  obtain ⟨-, hconfig, -, -, -, hwork⟩ := fetch_run hf
  obtain hsame | ⟨cfg, rfl, hlegal, hcfg⟩ := heffect.config
  · exact .inl (hsame.trans hconfig)
  obtain ⟨h, heq, cfg', rest, hhost⟩ | ⟨b, hb⟩ | ⟨-, bytes, rest, hdec⟩ := hwork
  · rw [instr_eq_reset heq.symm] at hhost
    exact .inr ⟨cfg', cfg, rest, hhost, hlegal, hcfg⟩
  · cases hb
  · obtain ⟨-, hframe, -⟩ := encodeInvertsDecode _ _ _ _ hdec
    cases hframe

/-- Settles O58: the fetch leaves both sequences and `Effect.grows` appends to them. -/
theorem egressSequencesOnlyGrow : Obligations.EgressSequencesOnlyGrow := by
  intro s t hstep
  obtain rfl | hf | ⟨i, u, hf, heffect⟩ := step_cases hstep
  · exact ⟨List.prefix_rfl, List.prefix_rfl⟩
  · obtain ⟨-, -, hevents, hsent, -⟩ := fetch_nothing hf
    exact ⟨hevents ▸ List.prefix_rfl, hsent ▸ List.prefix_rfl⟩
  · obtain ⟨-, -, hevents, hsent, -⟩ := fetch_run hf
    obtain ⟨-, hgrown⟩ := heffect.grows
    rwa [hevents, hsent] at hgrown

/-- Settles O59: both egress sequences start empty. -/
theorem powerOnMeetsTheInvariant : Obligations.PowerOnMeetsTheInvariant :=
  ⟨by decide, by decide, rfl, by simp [State.reset], by simp [State.reset]⟩

/-- Settles O60: the fetch touches no field the invariant speaks of, and gives frame rows only payloads that fit
(`fits_of_fetch`), under which every effect keeps the invariant. -/
theorem stepKeepsTheInvariant : Obligations.StepKeepsTheInvariant := by
  intro s t hs hstep
  obtain rfl | hf | ⟨i, u, hf, heffect⟩ := step_cases hstep
  · exact hs
  · obtain ⟨hblock, hconfig, hevents, hsent, -⟩ := fetch_nothing hf
    exact inv_congr hs hblock hconfig hevents hsent
  · obtain ⟨hblock, hconfig, hevents, hsent, -⟩ := fetch_run hf
    exact heffect.keeps_inv (inv_congr hs hblock hconfig hevents hsent) fun hi => hconfig ▸ fits_of_fetch hf hi

end Sys2Proof.Proofs.Steps
end
